-- ==== Sys2Proof/Word.lean ====
section
/-! DEFINITION. The widths of the machine's values (00_scope.md rule R8, 30_encoding.md rule R49). -/

namespace Sys2Proof

/-- A memory byte or the contents of a general register or timer (rule R8). -/
abbrev Byte := BitVec 8

/-- An instruction word, and the width `PC`, `I` and the call-stack entries are stored in (rules R8, R46). -/
abbrev Word := BitVec 16

/-- The 12-bit address immediate `nnn` (rule R49). -/
abbrev Addr := BitVec 12

/-- The index of a general register; all sixteen values are legal in every register field (rules R10, R51). -/
abbrev Reg := Fin 16

/-- The number of a key (rule R19). -/
abbrev Key := Fin 16

/-- `VF` is `V[15]` (10_state.md rule R11). -/
abbrev Reg.vf : Reg := 15

/-- Bytes in the address space (rule R8, `MEM_SIZE`). -/
abbrev memSize : Nat := 4096

/-- Entries of the call stack (rule R8, `STACK_DEPTH`). -/
abbrev stackDepth : Nat := 16

/-- Where the font stands (rule R8, `FONT_BASE`). -/
abbrev fontBase : Nat := 0x050

/-- Bytes of the font: 16 glyphs of 5 bytes (rule R8). -/
abbrev fontBytes : Nat := 80

/-- Where the program stands and where `PC` starts (rule R8, `PROG_BASE`). -/
abbrev progBase : Nat := 0x200

/-- The most bytes a ROM may have (rule R8). -/
abbrev maxRomBytes : Nat := memSize - progBase

end Sys2Proof
end

