-- ==== Sys2Proof/Config.lean ====
section
/-! DEFINITION. The configuration of a machine (00_scope.md rules R8, R9), what the host can do to it between
steps (rules R6, R7), and the free values: what the host does where no data says it (notes/assumptions/2.md)
and the parameters the spec gives no value for (notes/assumptions/4.md). -/

namespace Sys2Proof

/-- What a fetch beyond `0xFFF` does (rule R9, `pcOverrunPolicy`). -/
inductive PcOverrunPolicy where
  /-- The step fails with `AddressOutOfRange`; `PC` is never masked. -/
  | report
  /-- `PC` is masked to 12 bits at every write and fetch addresses wrap. -/
  | wrap
  deriving DecidableEq, Repr

/-- What a due tick does to `LTT` (rule R9, `tickAdvance`). -/
inductive TickAdvance where
  /-- `LTT <- now`. -/
  | toNow
  /-- `LTT <- LTT + TICK_PERIOD`. -/
  | byPeriod
  deriving DecidableEq, Repr

/-- The six configuration flags of rule R9 and the numeric parameters of rule R8. -/
structure Configuration where
  shiftUsesCopy : Bool
  jumpAddsVx : Bool
  dumpLoadIncrementsIndex : Bool
  indexAddSetsVF : Bool
  pcOverrunPolicy : PcOverrunPolicy
  tickAdvance : TickAdvance
  width : Nat
  height : Nat
  tickPeriod : Nat
  deriving DecidableEq, Repr

/-- The limits of rule R8: `W`, `H` and `TICK_PERIOD` are each at least 1. -/
abbrev Configuration.wf (c : Configuration) : Prop := 1 ≤ c.width ∧ 1 ≤ c.height ∧ 1 ≤ c.tickPeriod

/-- A host transaction that can fall between two steps (rules R6, R7; `reset` builds a new machine and is
`Machine.hostReset`). `setKey` takes an index 0 to 15 here: any other is outside its contract (rule R99). -/
inductive HostCall where
  | setKey (index : Key) (pressed : Bool)
  | snapshot
  | consumeChanged
  deriving DecidableEq, Repr

/-- What the host does up to and including one step: its calls before the step, oldest first, and the two
arguments of the step (rule R7). -/
structure StepInputs where
  calls : List HostCall
  now : Nat
  rand : Byte
  deriving DecidableEq, Repr

/-- Free value: the calls the host makes before step number `n` where no data says them
(DESIGN CHOICE, safe, notes/assumptions/2.md). -/
opaque Config.freeCalls : Nat → List HostCall

/-- Free value: the clock reading handed to step number `n` where no data says it
(DESIGN CHOICE, safe, notes/assumptions/2.md). -/
opaque Config.freeNow : Nat → Nat

/-- Free value: the random byte handed to step number `n` where no data says it; rule R91 puts no law on it
(DESIGN CHOICE, safe, notes/assumptions/2.md). -/
opaque Config.freeRand : Nat → Byte

/-- Free value: the `now` argument of the reset behind `State.reset` (rule R26; notes/assumptions/4.md). -/
opaque Config.resetNow : Nat

/-- Free value: `TICK_PERIOD - 1` of the machine behind `State.reset`; rule R8 fixes no value
(notes/assumptions/4.md). -/
opaque Config.tickPeriodLessOne : Nat

/-- `TICK_PERIOD` of the machine behind `State.reset`: positive and otherwise free (rule R8). -/
def Config.tickPeriod : Nat := Config.tickPeriodLessOne + 1

/-- The default configuration of rule R9 with the canonical 64 by 32 grid of rule R8
(notes/assumptions/7.md). -/
def Configuration.canonical : Configuration where
  shiftUsesCopy := true
  jumpAddsVx := false
  dumpLoadIncrementsIndex := false
  indexAddSetsVF := true
  pcOverrunPolicy := .report
  tickAdvance := .toNow
  width := 64
  height := 32
  tickPeriod := Config.tickPeriod

end Sys2Proof
end

