-- ==== Sys2Proof/Machine/State.lean ====
section
/-! DEFINITION. The machine's state (10_state.md rules R10 to R22), the names of its failed steps
(60_exceptions.md rule R106), the reasons a transaction can stop, and the state after reset (rule R26). -/

namespace Sys2Proof.Machine

/-- Memory: the bytes that differ from what an unlisted address reads as (`Memory.unlisted`, Machine/Ops.lean), by
rising address. -/
abbrev Memory := List Host.Cell

/-- The framebuffer's cells: rows from the top, in each row the cells from the left; `true` is 1 (on)
(10_state.md rule R20). -/
abbrev Grid := List (List Bool)

/-- The three exceptions, which the document calls errors of a failed step (rule R106). -/
inductive StepError where
  /-- `2nnn` with all sixteen stack entries in use (rule R107). -/
  | stackOverflow
  /-- `00EE` with an empty stack (rule R108). -/
  | stackUnderflow
  /-- A fetch-advance with `PC > 0xFFE` under `pcOverrunPolicy = report` (rule R109). -/
  | addressOutOfRange
  deriving DecidableEq, Repr

/-- The result a step returns to the host (00_scope.md rule R7). -/
inductive StepResult where
  | ok
  | err (e : StepError)
  deriving DecidableEq, Repr

/-- The state: everything the spec gives the machine, and after it the model's own fields, which hold a step's
input and result and what the host does at the coming steps (notes/assumptions/1.md to 3.md). -/
structure State where
  /-- `V[0]` to `V[15]` (rules R10, R11). -/
  v : Vector Byte 16
  /-- `PC` (rule R12). -/
  pc : Word
  /-- `I` (rule R13). -/
  i : Word
  /-- `SP`: the number of stack entries in use (rule R14). -/
  sp : Fin 17
  /-- `STACK[0]` to `STACK[15]` (rule R15). -/
  stack : Vector Word 16
  /-- `MEM` (rule R16). -/
  mem : Memory
  /-- `DT` (rule R17). -/
  dt : Byte
  /-- `ST` (rule R17). -/
  st : Byte
  /-- `LTT`, a timestamp (rule R18). -/
  ltt : Nat
  /-- `KEY[0]` to `KEY[15]` (rule R19). -/
  keys : Vector Bool 16
  /-- `FB` (rule R20). -/
  fb : Grid
  /-- `CHG` (rule R21). -/
  changed : Bool
  /-- `cfg`, with `W`, `H` and `TICK_PERIOD` (rules R22, R8, R9). -/
  cfg : Configuration
  /-- MODEL'S OWN: the result the latest step returned to the host; no rule reads it (rule R23). -/
  result : StepResult
  /-- MODEL'S OWN: the `rand` input of the current step (rules R7, R23). -/
  rand : Byte
  /-- MODEL'S OWN: what the host does before and at each coming step, nearest first (rules R6, R7). -/
  schedule : List StepInputs
  /-- MODEL'S OWN: the number of steps begun, which the free values are applied to. -/
  stepIndex : Nat
  deriving DecidableEq, Repr

/-- The reasons a step can stop with a fault: none. Every exception of the hardware is a failed step that leaves a
state the host can go on from (60_exceptions.md rules R110, R111, R115), and every state has a next step
(70_reset_and_hazards.md rule R142); notes/assumptions/24.md. -/
inductive Fault
  deriving DecidableEq, Repr

/-- The reasons the model gives a transaction no meaning. No instruction is refused. -/
inductive Refusal where
  /-- An arm of `exec` without a meaning; raised by no arm. Safe. -/
  | notModelled (mnemonic : String)
  /-- Raised by `hostSetKey` for an index above 15 (rule R99, decision D6). Safe. -/
  | keyIndexOutOfRange
  /-- Raised by `hostReset` for a font of other than 80 bytes (rule R129, U10). Safe. -/
  | fontNotEightyBytes
  /-- Raised by `hostReset` for a ROM of more than 3584 bytes (rule R129, U10). Safe. -/
  | romTooLong
  /-- Raised by `hostReset` for `W`, `H` or `TICK_PERIOD` of 0 (rule R8, decision D7). Safe. -/
  | configurationOutOfRange
  deriving DecidableEq, Repr

/-- The machine after `reset(FONT, ROM, now)` with the bytes of `mem` (rules R26, R129). The zeros but those of the
grid and `SP` are the spec's own (D28, D30: DESIGN CHOICE, unsafe, notes/assumptions/5.md). -/
def State.initial (cfg : Configuration) (mem : Memory) (now : Nat) : State where
  v := Vector.replicate 16 0x00#8
  pc := 0x0200#16
  i := 0x0000#16
  sp := 0
  stack := Vector.replicate 16 0x0000#16
  mem := mem
  dt := 0x00#8
  st := 0x00#8
  ltt := now
  keys := Vector.replicate 16 false
  fb := List.replicate cfg.height (List.replicate cfg.width false)
  changed := false
  cfg := cfg
  result := .ok
  rand := 0x00#8
  schedule := []
  stepIndex := 0

/-- The machine right after reset: the default configuration, the default font (what unlisted memory reads as), an
empty ROM, any `now` (notes/assumptions/4.md, 6.md, 7.md). -/
def State.reset : State := State.initial Configuration.canonical [] Config.resetNow

end Sys2Proof.Machine
end

