-- ==== Sys2Proof/Machine/Flags.lean ====
section
/-! DEFINITION. Every flag the spec computes (10_state.md rule R11, 41_register_alu.md rule R71). A flag is a Bool
here; `flagByte` is what a flag write stores. -/

namespace Sys2Proof.Machine

/-- A flag write stores exactly `0x00` or `0x01` (rule R11). -/
def flagByte (f : Bool) : Byte := if f then 0x01#8 else 0x00#8

/-- Carry of `8xy4`: 1 iff `a + b > 255` (rule R79). -/
def carry (a b : Byte) : Bool := decide (255 < a.toNat + b.toNat)

/-- Not-borrow of `a - b`: 0 iff `a < b` (rules R80, R82). -/
def notBorrow (a b : Byte) : Bool := !decide (a.toNat < b.toNat)

/-- The bit a right shift moves out: bit 0 (rule R81). -/
def lowBit (s : Byte) : Bool := s.getLsbD 0

/-- The bit a left shift moves out: bit 7 (rule R83). -/
def highBit (s : Byte) : Bool := s.getLsbD 7

/-- The overflow of `Fx1E`: 1 iff the sum passed `0xFFF` (42_index_memory.md rule R86; written with 0 otherwise,
D19, DESIGN CHOICE of the spec, notes/assumptions/13.md). -/
def indexOverflow (i : Word) (a : Byte) : Bool := decide (0xFFF < i.toNat + a.toNat)

end Sys2Proof.Machine
end

