-- ==== Sys2Proof/Syntax.lean ====
section
/-! DEFINITION. The instructions: one constructor per row of spec/opcode_table.json (30_encoding.md rule R53), the
last one for the words no row of R53 matches (rule R54). -/

namespace Sys2Proof

/-- An instruction with its operands. Register fields are the register's index; immediates are unsigned, at the
width they have in the word (rule R51). -/
inductive Instr where
  /-- `00E0` CLS (rule R93). -/
  | cls
  /-- `00EE` RET (rule R60). -/
  | ret
  /-- `1nnn` JP nnn (rule R61). -/
  | jp (nnn : Addr)
  /-- `2nnn` CALL nnn (rule R62). -/
  | call (nnn : Addr)
  /-- `3xnn` SE Vx, nn (rule R64). -/
  | seImm (x : Reg) (nn : Byte)
  /-- `4xnn` SNE Vx, nn (rule R65). -/
  | sneImm (x : Reg) (nn : Byte)
  /-- `5xy0` SE Vx, Vy (rule R66). -/
  | seReg (x y : Reg)
  /-- `6xnn` LD Vx, nn (rule R73). -/
  | ldImm (x : Reg) (nn : Byte)
  /-- `7xnn` ADD Vx, nn (rule R74). -/
  | addImm (x : Reg) (nn : Byte)
  /-- `8xy0` LD Vx, Vy (rule R75). -/
  | ldReg (x y : Reg)
  /-- `8xy1` OR Vx, Vy (rule R76). -/
  | orReg (x y : Reg)
  /-- `8xy2` AND Vx, Vy (rule R77). -/
  | andReg (x y : Reg)
  /-- `8xy3` XOR Vx, Vy (rule R78). -/
  | xorReg (x y : Reg)
  /-- `8xy4` ADD Vx, Vy (rule R79). -/
  | addReg (x y : Reg)
  /-- `8xy5` SUB Vx, Vy (rule R80). -/
  | subReg (x y : Reg)
  /-- `8xy6` SHR Vx, Vy (rule R81). -/
  | shr (x y : Reg)
  /-- `8xy7` SUBN Vx, Vy (rule R82). -/
  | subnReg (x y : Reg)
  /-- `8xyE` SHL Vx, Vy (rule R83). -/
  | shl (x y : Reg)
  /-- `9xy0` SNE Vx, Vy (rule R67). -/
  | sneReg (x y : Reg)
  /-- `Annn` LD I, nnn (rule R85). -/
  | ldI (nnn : Addr)
  /-- `Bnnn` JP V0, nnn (rule R68); under `cfg.jumpAddsVx` the top nibble of `nnn` is also the register field `x`
  (rule R56). -/
  | jpV0 (nnn : Addr)
  /-- `Cxnn` RND Vx, nn (rule R91). -/
  | rnd (x : Reg) (nn : Byte)
  /-- `Dxyn` DRW Vx, Vy, n (rule R96). -/
  | drw (x y : Reg) (n : Fin 16)
  /-- `Ex9E` SKP Vx (rule R100). -/
  | skp (x : Reg)
  /-- `ExA1` SKNP Vx (rule R101). -/
  | sknp (x : Reg)
  /-- `Fx07` LD Vx, DT (rule R103). -/
  | ldVxDt (x : Reg)
  /-- `Fx0A` LD Vx, K (rule R102). -/
  | ldVxK (x : Reg)
  /-- `Fx15` LD DT, Vx (rule R104). -/
  | ldDtVx (x : Reg)
  /-- `Fx18` LD ST, Vx (rule R105). -/
  | ldStVx (x : Reg)
  /-- `Fx1E` ADD I, Vx (rule R86). -/
  | addI (x : Reg)
  /-- `Fx29` LD F, Vx (rule R87). -/
  | ldF (x : Reg)
  /-- `Fx33` LD B, Vx (rule R88). -/
  | ldB (x : Reg)
  /-- `Fx55` LD [I], Vx; the `x` field is encoded and ignored (rule R89). -/
  | dump (x : Reg)
  /-- `Fx65` LD Vx, [I]; the `x` field is encoded and ignored (rule R90). -/
  | load (x : Reg)
  /-- The no-operation of an unrecognised word (rules R54, R69); it keeps the word, whose bits it ignores
  (DESIGN CHOICE, safe, notes/assumptions/9.md). -/
  | nop (w : Word)
  deriving DecidableEq, Repr

end Sys2Proof
end

