-- ==== Sys2Proof/Decode.lean ====
section
/-! DEFINITION. Instruction words and instructions: the fields of a word, the decoder, the encoder and the opcode
map's masks (30_encoding.md rules R46 to R56). The bit patterns of 26 rows, and the conditions of the four
conditional skips, are the spec's from general knowledge (UNVERIFIED, notes/assumptions/8.md). -/

namespace Sys2Proof

/-! ## Fields (rule R49) -/

/-- `n1`, bits 15 to 12: the major opcode. -/
def n1 (w : Word) : Nat := (w.extractLsb' 12 4).toNat

/-- `x`, bits 11 to 8: the first register operand. -/
def fieldX (w : Word) : Reg := (w.extractLsb' 8 4).toFin

/-- `y`, bits 7 to 4: the second register operand. -/
def fieldY (w : Word) : Reg := (w.extractLsb' 4 4).toFin

/-- `n`, bits 3 to 0: the sprite height, or a sub-opcode. -/
def fieldN (w : Word) : Fin 16 := (w.extractLsb' 0 4).toFin

/-- `nn`, bits 7 to 0. -/
def fieldNN (w : Word) : Byte := w.extractLsb' 0 8

/-- `nnn`, bits 11 to 0. -/
def fieldNNN (w : Word) : Addr := w.extractLsb' 0 12

/-! ## The decoder (rules R50, R52, R53, R54) -/

/-- The two words of major opcode 0 (format Z). -/
def decodeZ (w : Word) : Instr :=
  if w = 0x00E0#16 then .cls
  else if w = 0x00EE#16 then .ret
  else .nop w

/-- Major opcode 5: the low nibble must be 0 (DESIGN CHOICE of the spec, D24, notes/assumptions/18.md). -/
def decode5 (w : Word) : Instr :=
  if fieldN w = 0x0 then .seReg (fieldX w) (fieldY w) else .nop w

/-- Major opcode 8: the low nibble selects the operation. -/
def decode8 (w : Word) : Instr :=
  match (fieldN w).val with
  | 0x0 => .ldReg (fieldX w) (fieldY w)
  | 0x1 => .orReg (fieldX w) (fieldY w)
  | 0x2 => .andReg (fieldX w) (fieldY w)
  | 0x3 => .xorReg (fieldX w) (fieldY w)
  | 0x4 => .addReg (fieldX w) (fieldY w)
  | 0x5 => .subReg (fieldX w) (fieldY w)
  | 0x6 => .shr (fieldX w) (fieldY w)
  | 0x7 => .subnReg (fieldX w) (fieldY w)
  | 0xE => .shl (fieldX w) (fieldY w)
  | _ => .nop w

/-- Major opcode 9: the low nibble must be 0 (DESIGN CHOICE of the spec, D24, notes/assumptions/18.md). -/
def decode9 (w : Word) : Instr :=
  if fieldN w = 0x0 then .sneReg (fieldX w) (fieldY w) else .nop w

/-- Major opcode E: the low byte selects the operation. -/
def decodeE (w : Word) : Instr :=
  match (fieldNN w).toNat with
  | 0x9E => .skp (fieldX w)
  | 0xA1 => .sknp (fieldX w)
  | _ => .nop w

/-- Major opcode F: the low byte selects the operation. -/
def decodeF (w : Word) : Instr :=
  match (fieldNN w).toNat with
  | 0x07 => .ldVxDt (fieldX w)
  | 0x0A => .ldVxK (fieldX w)
  | 0x15 => .ldDtVx (fieldX w)
  | 0x18 => .ldStVx (fieldX w)
  | 0x1E => .addI (fieldX w)
  | 0x29 => .ldF (fieldX w)
  | 0x33 => .ldB (fieldX w)
  | 0x55 => .dump (fieldX w)
  | 0x65 => .load (fieldX w)
  | _ => .nop w

/-- The instruction a word selects: a pure function of the word, defined on every word (rule R52). -/
def decode (w : Word) : Instr :=
  match n1 w with
  | 0x0 => decodeZ w
  | 0x1 => .jp (fieldNNN w)
  | 0x2 => .call (fieldNNN w)
  | 0x3 => .seImm (fieldX w) (fieldNN w)
  | 0x4 => .sneImm (fieldX w) (fieldNN w)
  | 0x5 => decode5 w
  | 0x6 => .ldImm (fieldX w) (fieldNN w)
  | 0x7 => .addImm (fieldX w) (fieldNN w)
  | 0x8 => decode8 w
  | 0x9 => decode9 w
  | 0xA => .ldI (fieldNNN w)
  | 0xB => .jpV0 (fieldNNN w)
  | 0xC => .rnd (fieldX w) (fieldNN w)
  | 0xD => .drw (fieldX w) (fieldY w) (fieldN w)
  | 0xE => decodeE w
  | _ => decodeF w

/-! ## Bytes (rules R30, R46) -/

/-- The word whose byte at the lower address is `hi`: fetch is big-endian (20_memory.md rule R30). -/
def wordOfBytes (hi lo : Byte) : Word := hi ++ lo

/-- The byte of a word that stands at the lower address. -/
def hiByte (w : Word) : Byte := w.extractLsb' 8 8

/-- The byte of a word that stands at the higher address. -/
def loByte (w : Word) : Byte := w.extractLsb' 0 8

/-- Why bytes are no instruction. -/
inductive DecodeError where
  /-- Fewer than two bytes: every instruction is two bytes long (rule R46). -/
  | truncated
  deriving DecidableEq, Repr

/-- Decoding a sequence of bytes: the instruction of the first two and the bytes that follow it. Every pair of
bytes is an instruction, an unrecognised one the no-operation (rule R54). -/
def decodeBytes : List Byte → Except DecodeError (Instr × List Byte)
  | hi :: lo :: rest => .ok (decode (wordOfBytes hi lo), rest)
  | _ => .error .truncated

/-- The instruction the decoder reads from an instruction numbered as spec/opcode_table.json numbers it: the
word's bit 0 is its least significant bit, bits from `nbits` up are 0. -/
def decodeTableWord (nbits w : Nat) : Option Instr :=
  let word := BitVec.ofNat 16 (w % 2 ^ nbits)
  match decodeBytes [hiByte word, loByte word] with
  | .ok (i, _) => some i
  | .error _ => none

/-! ## The encoder (rules R50, R53) -/

/-- A 4-bit field holding a register number or a count. -/
def nibble (k : Fin 16) : BitVec 4 := BitVec.ofFin k

/-- Format A: opcode and 12-bit address. -/
def formatA (op : BitVec 4) (nnn : Addr) : Word := op ++ nnn

/-- Formats XB and X: opcode, register, byte (an immediate or a sub-opcode). -/
def formatXB (op : BitVec 4) (x : Reg) (nn : Byte) : Word := op ++ nibble x ++ nn

/-- Formats XY and XYN: opcode, two registers, nibble (a sub-opcode or a count). -/
def formatXY (op : BitVec 4) (x y : Reg) (n : BitVec 4) : Word := op ++ nibble x ++ nibble y ++ n

/-- The word of an instruction (rule R53); a no-operation is its own word. -/
def encode : Instr → Word
  | .cls => 0x00E0#16
  | .ret => 0x00EE#16
  | .jp nnn => formatA 0x1#4 nnn
  | .call nnn => formatA 0x2#4 nnn
  | .seImm x nn => formatXB 0x3#4 x nn
  | .sneImm x nn => formatXB 0x4#4 x nn
  | .seReg x y => formatXY 0x5#4 x y 0x0#4
  | .ldImm x nn => formatXB 0x6#4 x nn
  | .addImm x nn => formatXB 0x7#4 x nn
  | .ldReg x y => formatXY 0x8#4 x y 0x0#4
  | .orReg x y => formatXY 0x8#4 x y 0x1#4
  | .andReg x y => formatXY 0x8#4 x y 0x2#4
  | .xorReg x y => formatXY 0x8#4 x y 0x3#4
  | .addReg x y => formatXY 0x8#4 x y 0x4#4
  | .subReg x y => formatXY 0x8#4 x y 0x5#4
  | .shr x y => formatXY 0x8#4 x y 0x6#4
  | .subnReg x y => formatXY 0x8#4 x y 0x7#4
  | .shl x y => formatXY 0x8#4 x y 0xE#4
  | .sneReg x y => formatXY 0x9#4 x y 0x0#4
  | .ldI nnn => formatA 0xA#4 nnn
  | .jpV0 nnn => formatA 0xB#4 nnn
  | .rnd x nn => formatXB 0xC#4 x nn
  | .drw x y n => formatXY 0xD#4 x y (nibble n)
  | .skp x => formatXB 0xE#4 x 0x9E#8
  | .sknp x => formatXB 0xE#4 x 0xA1#8
  | .ldVxDt x => formatXB 0xF#4 x 0x07#8
  | .ldVxK x => formatXB 0xF#4 x 0x0A#8
  | .ldDtVx x => formatXB 0xF#4 x 0x15#8
  | .ldStVx x => formatXB 0xF#4 x 0x18#8
  | .addI x => formatXB 0xF#4 x 0x1E#8
  | .ldF x => formatXB 0xF#4 x 0x29#8
  | .ldB x => formatXB 0xF#4 x 0x33#8
  | .dump x => formatXB 0xF#4 x 0x55#8
  | .load x => formatXB 0xF#4 x 0x65#8
  | .nop w => w

/-! ## The opcode map as masks (rule R53) -/

/-- A mask and the value the masked word must have. -/
abbrev OpcodeRow := Word × Word

/-- `op & mask = match`. -/
def OpcodeRow.selects (r : OpcodeRow) (w : Word) : Bool := w &&& r.1 == r.2

/-- The 34 rows of rule R53 in its order. -/
def opcodeMap : List OpcodeRow :=
  [ (0xFFFF#16, 0x00E0#16), (0xFFFF#16, 0x00EE#16), (0xF000#16, 0x1000#16), (0xF000#16, 0x2000#16),
    (0xF000#16, 0x3000#16), (0xF000#16, 0x4000#16), (0xF00F#16, 0x5000#16), (0xF000#16, 0x6000#16),
    (0xF000#16, 0x7000#16), (0xF00F#16, 0x8000#16), (0xF00F#16, 0x8001#16), (0xF00F#16, 0x8002#16),
    (0xF00F#16, 0x8003#16), (0xF00F#16, 0x8004#16), (0xF00F#16, 0x8005#16), (0xF00F#16, 0x8006#16),
    (0xF00F#16, 0x8007#16) ] ++
  [ (0xF00F#16, 0x800E#16), (0xF00F#16, 0x9000#16), (0xF000#16, 0xA000#16), (0xF000#16, 0xB000#16),
    (0xF000#16, 0xC000#16), (0xF000#16, 0xD000#16), (0xF0FF#16, 0xE09E#16), (0xF0FF#16, 0xE0A1#16),
    (0xF0FF#16, 0xF007#16), (0xF0FF#16, 0xF00A#16), (0xF0FF#16, 0xF015#16), (0xF0FF#16, 0xF018#16),
    (0xF0FF#16, 0xF01E#16), (0xF0FF#16, 0xF029#16), (0xF0FF#16, 0xF033#16), (0xF0FF#16, 0xF055#16),
    (0xF0FF#16, 0xF065#16) ]

/-- A word no row of rule R53 matches (rule R54). -/
def unrecognised (w : Word) : Bool := opcodeMap.all fun r => !r.selects w

end Sys2Proof
end

