-- ==== Sys2Proof/Machine/Ops.lean ====
section
/-! DEFINITION. The named operations: memory, `PC` and fetch, the call stack, taking an exception, the timer phase,
and what the host does at the start of a step. -/

namespace Sys2Proof.Machine

/-! ## Memory (20_memory.md) -/

/-- The default font of 70_reset_and_hazards.md rule R130, 5 bytes a glyph (PRESUMED by the spec, G3, unsafe,
notes/assumptions/6.md). -/
def defaultFont : List Byte :=
  [ 0xF0, 0x90, 0x90, 0x90, 0xF0,  0x20, 0x60, 0x20, 0x20, 0x70,  0xF0, 0x10, 0xF0, 0x80, 0xF0,
    0xF0, 0x10, 0xF0, 0x10, 0xF0,  0x90, 0x90, 0xF0, 0x10, 0x10,  0xF0, 0x80, 0xF0, 0x10, 0xF0 ] ++
  [ 0xF0, 0x80, 0xF0, 0x90, 0xF0,  0xF0, 0x10, 0x20, 0x40, 0x40,  0xF0, 0x90, 0xF0, 0x90, 0xF0,
    0xF0, 0x90, 0xF0, 0x10, 0xF0,  0xF0, 0x90, 0xF0, 0x90, 0x90,  0xE0, 0x90, 0xE0, 0x90, 0xE0 ] ++
  [ 0xF0, 0x80, 0x80, 0x80, 0xF0,  0xE0, 0x90, 0x90, 0x90, 0xE0,  0xF0, 0x80, 0xF0, 0x80, 0xF0,
    0xF0, 0x80, 0xF0, 0x80, 0x80 ]

/-- What an address that memory does not list reads as: the font at `0x050`, zero elsewhere (rule R38; decision D29,
DESIGN CHOICE, unsafe, notes/assumptions/6.md). -/
def Memory.unlisted (a : Nat) : Byte :=
  if fontBase ≤ a then defaultFont.getD (a - fontBase) 0x00#8 else 0x00#8

/-- The byte at an address. -/
def Memory.read : Memory → Nat → Byte
  | [], a => Memory.unlisted a
  | (a', b) :: m, a => if a' = a then b else Memory.read m a

/-- Listing a byte in front of the first higher address. -/
def Memory.insert : Memory → Nat → Byte → Memory
  | [], a, b => [(a, b)]
  | (a', b') :: m, a, b => if a < a' then (a, b) :: (a', b') :: m else (a', b') :: Memory.insert m a b

/-- Memory with one byte stored: the old entry goes, and a byte that the address does not read as by itself is
listed. -/
def Memory.write (m : Memory) (a : Nat) (b : Byte) : Memory :=
  let others := m.filter fun c => c.1 != a
  if b = Memory.unlisted a then others else Memory.insert others a b

/-- The canonical form: addresses strictly rising and inside the address space, no byte listed that its address
reads as by itself. -/
abbrev Memory.wf (m : Memory) : Prop :=
  m.Pairwise (fun c d => c.1 < d.1) ∧ ∀ c ∈ m, c.1 < memSize ∧ c.2 ≠ Memory.unlisted c.1

/-- `MemWrite` of consecutive bytes in ascending order, each address reduced by itself (rules R32, R35, R37). -/
def Memory.store (m : Memory) (a : Nat) : List Byte → Memory
  | [] => m
  | b :: bs => Memory.store (m.write (a % memSize) b) (a + 1) bs

/-- `MemRead(a, 1)` (rule R36). -/
def State.byteAt (s : State) (a : Nat) : Byte := s.mem.read (a % memSize)

/-- The data address `ea(k) = (I + k) mod 4096` (rule R35; D21, DESIGN CHOICE of the spec,
notes/assumptions/15.md). -/
def State.ea (s : State) (k : Nat) : Nat := (s.i.toNat + k) % memSize

/-- Bytes stored from `I` on (rules R32, R37). -/
def State.storeAtI (s : State) (bs : List Byte) : State := { s with mem := s.mem.store s.i.toNat bs }

/-- The `k`-th byte from `I` on (rules R35, R36). -/
def State.loadAtI (s : State) (k : Nat) : Byte := s.byteAt (s.ea k)

/-! ## Taking an exception (60_exceptions.md) -/

/-- `raise E`: the step ends with result `Err(E)`, everything it did before stands and nothing else is written; no
register is saved, no mode changes, `PC` goes to no vector (rules R111, R114; D12, DESIGN CHOICE of the spec,
notes/assumptions/1.md, 22.md). There is no return from it to model: the host steps on (rule R115). -/
def State.raise (s : State) (e : StepError) : State := { s with result := .err e }

/-! ## `PC` and fetch (30_encoding.md rules R47, R48) -/

/-- The value a write of `PC` stores: unmasked under `report`, `mod 4096` under `wrap` (rules R9, R12). -/
def pcValue (cfg : Configuration) (t : Nat) : Word :=
  match cfg.pcOverrunPolicy with
  | .report => BitVec.ofNat 16 t
  | .wrap => BitVec.ofNat 16 (t % memSize)

/-- A write of `PC`. -/
def State.writePc (s : State) (t : Nat) : State := { s with pc := pcValue s.cfg t }

/-- Whether a fetch-advance fails: under `report`, when `PC > 0xFFE` (rule R48; D8, DESIGN CHOICE of the spec,
notes/assumptions/20.md). -/
def State.fetchFails (s : State) : Bool :=
  s.cfg.pcOverrunPolicy == .report && decide (0xFFE < s.pc.toNat)

/-- The word at `PC`, big-endian (rule R30); both addresses are taken `mod 4096`, which changes nothing where
`report` lets the fetch happen. -/
def State.wordAtPc (s : State) : Word := wordOfBytes (s.byteAt s.pc.toNat) (s.byteAt (s.pc.toNat + 1))

/-- `PC` advanced by 2 (rule R47). -/
def State.advancePc (s : State) : State := s.writePc (s.pc.toNat + 2)

/-- `FetchAdvance()`: the word and the state after it, or nothing where it raises `AddressOutOfRange`
(rule R47). -/
def fetchAdvance (s : State) : Option (Word × State) :=
  if s.fetchFails then none else some (s.wordAtPc, s.advancePc)

/-- `Skip()`: a fetch-advance whose word is thrown away (40_control_flow.md rule R59; D9, DESIGN CHOICE of the
spec, notes/assumptions/20.md). -/
def skip (s : State) : State :=
  match fetchAdvance s with
  | some (_, t) => t
  | none => s.raise .addressOutOfRange

/-- `if c: Skip()`. -/
def skipIf (c : Bool) (s : State) : State := if c then skip s else s

/-! ## Call stack (40_control_flow.md rules R60, R62) -/

/-- `Push(v)`, or `StackOverflow` where `SP = 16` (D11, DESIGN CHOICE of the spec, notes/assumptions/21.md). -/
def push (v : Word) (s : State) : Except StepError State :=
  if h : s.sp.val < stackDepth then
    .ok { s with stack := s.stack.set s.sp.val v h, sp := ⟨s.sp.val + 1, Nat.succ_lt_succ h⟩ }
  else .error .stackOverflow

/-- `Pop()`: the popped entry and the state after it, or `StackUnderflow` where `SP = 0`. The entry keeps its value
in the stack (10_state.md rule R15). -/
def pop (s : State) : Except StepError (Word × State) :=
  if h : s.sp.val = 0 then .error .stackUnderflow
  else
    let top : Fin 16 := ⟨s.sp.val - 1, by have := s.sp.isLt; omega⟩
    .ok (s.stack[top], { s with sp := top.castSucc })

/-! ## Timers (60_exceptions.md rule R118) -/

/-- Whether a tick is due at `now` (rules R118, R119; a clock that ran backwards makes none due, D4, DESIGN CHOICE of
the spec, notes/assumptions/23.md). -/
def State.tickDue (s : State) (now : Nat) : Bool :=
  decide (s.ltt ≤ now) && decide (s.cfg.tickPeriod ≤ now - s.ltt)

/-- One decrement toward zero, never below it (10_state.md rule R17). -/
def countDown (t : Byte) : Byte := if t = 0 then t else t - 1

/-- What a due tick sets `LTT` to (rule R118, `cfg.tickAdvance`; D3, DESIGN CHOICE of the spec,
notes/assumptions/23.md). -/
def State.lttAfterTick (s : State) (now : Nat) : Nat :=
  match s.cfg.tickAdvance with
  | .toNow => now
  | .byPeriod => s.ltt + s.cfg.tickPeriod

/-- `TimerPhase(now)` (rule R118). -/
def timerPhase (now : Nat) (s : State) : State :=
  { s with
    dt := if s.tickDue now then countDown s.dt else s.dt
    st := if s.tickDue now then countDown s.st else s.st
    ltt := if s.tickDue now then s.lttAfterTick now else s.ltt }

/-! ## The host at a step (00_scope.md rules R6, R7; notes/assumptions/2.md) -/

/-- The key flags after one host call (44_keys_timers.md rule R99). -/
def keysAfter (keys : Vector Bool 16) : HostCall → Vector Bool 16
  | .setKey k pressed => keys.set k.val pressed
  | .snapshot => keys
  | .consumeChanged => keys

/-- `CHG` after one host call (43_random_draw.md rules R97, R98). -/
def changedAfter (changed : Bool) : HostCall → Bool
  | .setKey _ _ => changed
  | .snapshot => changed
  | .consumeChanged => false

/-- The state after the host's calls, in the order made. -/
def hostCalls (calls : List HostCall) (s : State) : State :=
  { s with keys := calls.foldl keysAfter s.keys, changed := calls.foldl changedAfter s.changed }

/-- What the host does up to and including the next step: the head of the schedule, or a free value where the
schedule is empty. -/
def State.nextInputs (s : State) : StepInputs where
  calls := match s.schedule with | [] => Config.freeCalls s.stepIndex | p :: _ => p.calls
  now := match s.schedule with | [] => Config.freeNow s.stepIndex | p :: _ => p.now
  rand := match s.schedule with | [] => Config.freeRand s.stepIndex | p :: _ => p.rand

/-- The start of a `step(now, rand)` transaction: its `rand` input at hand, its result `Ok` until a `raise`. -/
def beginTransaction (rand : Byte) (s : State) : State :=
  { s with rand := rand, result := .ok, schedule := s.schedule.tail, stepIndex := s.stepIndex + 1 }

/-- Everything before the fetch: the host's calls, the start of the transaction, the timer phase (30_encoding.md
rule R45, phase 1). -/
def beginStep (s : State) : State :=
  let p := s.nextInputs
  timerPhase p.now (beginTransaction p.rand (hostCalls p.calls s))

/-- The address `withFetchWord` stores at: `PC` where a fetch from it can happen, else the reset value of `PC`
(notes/assumptions/4.md). -/
def State.fetchAddress (s : State) : Nat := if s.fetchFails then progBase else s.pc.toNat

/-- A state whose next fetch reads `word` (notes/assumptions/4.md). -/
def State.placeWord (s : State) (word : Word) : State :=
  { s with
    mem := s.mem.store s.fetchAddress [hiByte word, loByte word]
    pc := BitVec.ofNat 16 s.fetchAddress }

end Sys2Proof.Machine
end

