-- ==== Sys2Proof/Machine/Operands.lean ====
section
/-! DEFINITION. Every operand form (30_encoding.md rule R51): reads and writes of `V[x]` and `VF`, the operands that a
configuration flag selects, and the values formed from an operand. Immediates are used as they stand. -/

namespace Sys2Proof.Machine

/-- `V[r]` (10_state.md rule R10). -/
def State.reg (s : State) (r : Reg) : Byte := s.v[r]

/-- `V[r] <- b`; the write takes effect at once (rule R10). -/
def State.setReg (s : State) (r : Reg) (b : Byte) : State := { s with v := s.v.set r.val b }

/-- `VF <- f` (rule R11). -/
def State.setFlag (s : State) (f : Bool) : State := s.setReg Reg.vf (flagByte f)

/-- A result to `V[x]` and then a flag to `VF`, which stays if `x = 15` (41_register_alu.md rule R72; D16, DESIGN
CHOICE of the spec, notes/assumptions/11.md). -/
def State.setRegFlag (s : State) (x : Reg) (b : Byte) (f : Bool) : State := (s.setReg x b).setFlag f

/-- The source of a shift: `V[y]` under `cfg.shiftUsesCopy`, else `V[x]` (rules R81, R83; D18, PRESUMED by the spec,
notes/assumptions/7.md). -/
def State.shiftSource (s : State) (x y : Reg) : Byte := if s.cfg.shiftUsesCopy then s.reg y else s.reg x

/-- The register field inside an address immediate: `op[11:8]` (rule R56). -/
def addrX (nnn : Addr) : Reg := (nnn.extractLsb' 8 4).toFin

/-- The offset of `Bnnn`: `V[x]` under `cfg.jumpAddsVx`, else `V[0]` (40_control_flow.md rule R68; D18, PRESUMED by
the spec, notes/assumptions/7.md). -/
def State.jumpOffset (s : State) (nnn : Addr) : Byte :=
  if s.cfg.jumpAddsVx then s.reg (addrX nnn) else s.reg 0

/-- An address immediate as a value of `PC` or `I`: zero-extended (rule R51). -/
def addrWord (nnn : Addr) : Word := nnn.zeroExtend 16

/-- `I <- t mod 4096` (rule R13). -/
def State.setI (s : State) (t : Nat) : State := { s with i := BitVec.ofNat 16 (t % memSize) }

/-- The key `V[x] & 0xF` selects (44_keys_timers.md rule R100; D22, DESIGN CHOICE of the spec,
notes/assumptions/16.md). -/
def State.keyOf (s : State) (x : Reg) : Key := ((s.reg x).extractLsb' 0 4).toFin

/-- `KEY[k]` (rule R19). -/
def State.key (s : State) (k : Key) : Bool := s.keys[k]

/-- The least pressed key, if any (rule R102; D23, DESIGN CHOICE of the spec, notes/assumptions/17.md). -/
def State.leastKey (s : State) : Option Key := (List.finRange 16).find? fun k => s.key k

/-- The glyph address `0x050 + (V[x] & 0xF) * 5` (42_index_memory.md rule R87). -/
def glyphAddress (d : Byte) : Nat := fontBase + (d.toNat % 16) * 5

/-- The three decimal digits of a byte, hundreds first, one a byte (rule R88). -/
def decimalDigits (b : Byte) : List Byte :=
  [BitVec.ofNat 8 (b.toNat / 100), BitVec.ofNat 8 (b.toNat / 10 % 10), BitVec.ofNat 8 (b.toNat % 10)]

/-- The `n` sprite bytes from `I` on, ascending (43_random_draw.md rule R96). -/
def State.spriteRows (s : State) (n : Nat) : List Byte := (List.range n).map s.loadAtI

/-- `I` after a block transfer: advanced by the 16 bytes moved under `cfg.dumpLoadIncrementsIndex` (rules R89, R90;
D20, DESIGN CHOICE of the spec, notes/assumptions/14.md). -/
def State.indexAfterBlock (s : State) : State :=
  { s with i := if s.cfg.dumpLoadIncrementsIndex then BitVec.ofNat 16 ((s.i.toNat + 16) % memSize) else s.i }

end Sys2Proof.Machine
end

