-- ==== Sys2Proof/Machine/ControlFlow.lean ====
section
/-! DEFINITION. The control-flow instructions and the no-operation (40_control_flow.md). At the start of each meaning
`PC` is the address of the following instruction: the fetch has advanced it. -/

namespace Sys2Proof.Machine

/-- `00EE` RET (rule R60). -/
def execRet (s : State) : Host.Outcome State Fault Refusal :=
  .next (match pop s with
    | .ok (target, t) => t.writePc target.toNat
    | .error e => s.raise e)

/-- `1nnn` JP nnn (rule R61). -/
def execJp (nnn : Addr) (s : State) : Host.Outcome State Fault Refusal :=
  .next (s.writePc nnn.toNat)

/-- `2nnn` CALL nnn (rule R62): the advanced `PC` is pushed, then the jump. -/
def execCall (nnn : Addr) (s : State) : Host.Outcome State Fault Refusal :=
  .next (match push s.pc s with
    | .ok t => t.writePc nnn.toNat
    | .error e => s.raise e)

/-- `3xnn` SE Vx, nn (rule R64). -/
def execSeImm (x : Reg) (nn : Byte) (s : State) : Host.Outcome State Fault Refusal :=
  .next (skipIf (s.reg x == nn) s)

/-- `4xnn` SNE Vx, nn (rule R65). -/
def execSneImm (x : Reg) (nn : Byte) (s : State) : Host.Outcome State Fault Refusal :=
  .next (skipIf (s.reg x != nn) s)

/-- `5xy0` SE Vx, Vy (rule R66). -/
def execSeReg (x y : Reg) (s : State) : Host.Outcome State Fault Refusal :=
  .next (skipIf (s.reg x == s.reg y) s)

/-- `9xy0` SNE Vx, Vy (rule R67). -/
def execSneReg (x y : Reg) (s : State) : Host.Outcome State Fault Refusal :=
  .next (skipIf (s.reg x != s.reg y) s)

/-- `Bnnn` JP V0, nnn (rule R68): `VF` is not written, whatever the sum. -/
def execJpV0 (nnn : Addr) (s : State) : Host.Outcome State Fault Refusal :=
  .next (s.writePc (nnn.toNat + (s.jumpOffset nnn).toNat))

/-- The no-operation of an unrecognised word (rule R69). -/
def execNop (_w : Word) (s : State) : Host.Outcome State Fault Refusal := .next s

end Sys2Proof.Machine
end

