-- ==== Sys2Proof/Machine/Framebuffer.lean ====
section
/-! DEFINITION. The framebuffer's operations that instructions use: clear and draw (43_random_draw.md rules R92,
R94). -/

namespace Sys2Proof.Machine

/-- `FB[r][c]`; a cell outside the grid reads as 0, which no operation uses (notes/assumptions/25.md). -/
def Grid.cell (g : Grid) (r c : Nat) : Bool := (g.getD r []).getD c false

/-- `FB[r][c] <- FB[r][c] ^ 1`. -/
def Grid.flip (g : Grid) (r c : Nat) : Grid := g.modify r fun row => row.modify c not

/-- A grid of `h` rows of `w` cells, all 0. -/
def Grid.blank (w h : Nat) : Grid := List.replicate h (List.replicate w false)

/-- The shape of the grid: `h` rows of `w` cells. -/
abbrev Grid.hasShape (g : Grid) (w h : Nat) : Prop := g.length = h ∧ ∀ row ∈ g, row.length = w

/-- `FbClear()`: every cell 0, `CHG` set whatever the grid held (rule R92). -/
def fbClear (s : State) : State := { s with fb := Grid.blank s.cfg.width s.cfg.height, changed := true }

/-- The cells one sprite row flips, from its leftmost pixel (bit 7) on: the set bits whose cell is inside the grid
(rule R94). -/
def rowPixels (w h ox yy : Nat) (bits : Byte) : List (Nat × Nat) :=
  ((List.range 8).filter fun c => decide (yy < h) && decide (ox + c < w) && bits.getLsbD (7 - c)).map
    fun c => (yy, ox + c)

/-- The cells a sprite flips, row by row from its effective origin on (rule R94): only the origin wraps, what passes
the right or the bottom edge is clipped. -/
def spritePixels (w h ox : Nat) : Nat → List Byte → List (Nat × Nat)
  | _, [] => []
  | yy, bits :: rows => rowPixels w h ox yy bits ++ spritePixels w h ox (yy + 1) rows

/-- What a draw has done so far (rule R94): the grid, and its two flags. -/
structure Drawing where
  grid : Grid
  collision : Bool
  flipped : Bool
  deriving DecidableEq, Repr

/-- One pixel of a draw (rule R94): the collision test before the flip, the flip, the note that a cell flipped. -/
def Drawing.pixel (d : Drawing) (p : Nat × Nat) : Drawing where
  grid := d.grid.flip p.1 p.2
  collision := d.collision || d.grid.cell p.1 p.2
  flipped := true

/-- `FbDraw(rows, X, Y)` (rule R94): the state after it and the collision. `CHG` is set when a cell flipped and else
left alone (D25, DESIGN CHOICE of the spec, notes/assumptions/19.md). -/
def fbDraw (rows : List Byte) (ox oy : Byte) (s : State) : Bool × State :=
  let pixels := spritePixels s.cfg.width s.cfg.height (ox.toNat % s.cfg.width) (oy.toNat % s.cfg.height) rows
  let d := pixels.foldl Drawing.pixel { grid := s.fb, collision := false, flipped := false }
  (d.collision, { s with fb := d.grid, changed := s.changed || d.flipped })

end Sys2Proof.Machine
end

