-- ==== Sys2Proof/Machine/Display.lean ====
section
/-! DEFINITION. The random, clear and draw instructions (43_random_draw.md). -/

namespace Sys2Proof.Machine

/-- `Cxnn` RND Vx, nn (rule R91): the step's `rand` input, masked. -/
def execRnd (x : Reg) (nn : Byte) (s : State) : Host.Outcome State Fault Refusal :=
  .next (s.setReg x (s.rand &&& nn))

/-- `00E0` CLS (rule R93). -/
def execCls (s : State) : Host.Outcome State Fault Refusal := .next (fbClear s)

/-- `Dxyn` DRW Vx, Vy, n (rule R96): the sprite at `I`, the origin in the registers, `VF` = collision, written last;
it waits for no refresh (D26, DESIGN CHOICE of the spec, notes/assumptions/19.md). -/
def execDrw (x y : Reg) (n : Fin 16) (s : State) : Host.Outcome State Fault Refusal :=
  let drawn := fbDraw (s.spriteRows n.val) (s.reg x) (s.reg y) s
  .next (drawn.2.setFlag drawn.1)

end Sys2Proof.Machine
end

