-- ==== Sys2Proof/Machine/Index.lean ====
section
/-! DEFINITION. The index-register and memory instructions (42_index_memory.md). -/

namespace Sys2Proof.Machine

/-- `Annn` LD I, nnn (rule R85). -/
def execLdI (nnn : Addr) (s : State) : Host.Outcome State Fault Refusal :=
  .next { s with i := addrWord nnn }

/-- `Fx1E` ADD I, Vx (rule R86): `VF` = the 12-bit overflow, under `cfg.indexAddSetsVF`; `I` is kept to 12 bits
(D19, DESIGN CHOICE of the spec, notes/assumptions/13.md). -/
def execAddI (x : Reg) (s : State) : Host.Outcome State Fault Refusal :=
  let t := s.setI (s.i.toNat + (s.reg x).toNat)
  .next (if s.cfg.indexAddSetsVF then t.setFlag (indexOverflow s.i (s.reg x)) else t)

/-- `Fx29` LD F, Vx (rule R87). -/
def execLdF (x : Reg) (s : State) : Host.Outcome State Fault Refusal :=
  .next (s.setI (glyphAddress (s.reg x)))

/-- `Fx33` LD B, Vx (rule R88). -/
def execLdB (x : Reg) (s : State) : Host.Outcome State Fault Refusal :=
  .next (s.storeAtI (decimalDigits (s.reg x)))

/-- `Fx55` LD [I], Vx (rule R89): all sixteen registers, whatever `x` is (UNVERIFIED, U6,
notes/assumptions/10.md). -/
def execDump (_x : Reg) (s : State) : Host.Outcome State Fault Refusal :=
  .next (s.storeAtI s.v.toList).indexAfterBlock

/-- `Fx65` LD Vx, [I] (rule R90): all sixteen registers, whatever `x` is (UNVERIFIED, U6,
notes/assumptions/10.md). -/
def execLoad (_x : Reg) (s : State) : Host.Outcome State Fault Refusal :=
  .next ({ s with v := Vector.ofFn fun k => s.loadAtI k.val }).indexAfterBlock

end Sys2Proof.Machine
end

