-- ==== Sys2Proof/Machine/KeysTimers.lean ====
section
/-! DEFINITION. The key and timer instructions (44_keys_timers.md). -/

namespace Sys2Proof.Machine

/-- `Ex9E` SKP Vx (rule R100). -/
def execSkp (x : Reg) (s : State) : Host.Outcome State Fault Refusal :=
  .next (skipIf (s.key (s.keyOf x)) s)

/-- `ExA1` SKNP Vx (rule R101). -/
def execSknp (x : Reg) (s : State) : Host.Outcome State Fault Refusal :=
  .next (skipIf (!s.key (s.keyOf x)) s)

/-- `Fx0A` LD Vx, K (rule R102): the least pressed key is reported and cleared; with none pressed `PC` goes back to
this instruction and the step returns normally (`PC - 2` is formed `mod 2^16` first, which no fetch-advanced `PC`
shows under `report`). -/
def execLdVxK (x : Reg) (s : State) : Host.Outcome State Fault Refusal :=
  .next (match s.leastKey with
    | some k => { s.setReg x (BitVec.ofNat 8 k.val) with keys := s.keys.set k.val false }
    | none => s.writePc (s.pc - 2).toNat)

/-- `Fx07` LD Vx, DT (rule R103). -/
def execLdVxDt (x : Reg) (s : State) : Host.Outcome State Fault Refusal :=
  .next (s.setReg x s.dt)

/-- `Fx15` LD DT, Vx (rule R104). -/
def execLdDtVx (x : Reg) (s : State) : Host.Outcome State Fault Refusal :=
  .next { s with dt := s.reg x }

/-- `Fx18` LD ST, Vx (rule R105). -/
def execLdStVx (x : Reg) (s : State) : Host.Outcome State Fault Refusal :=
  .next { s with st := s.reg x }

end Sys2Proof.Machine
end

