-- ==== Sys2Proof/Machine/Step.lean ====
section
/-! DEFINITION. One step transaction (30_encoding.md rule R45). -/

namespace Sys2Proof.Machine

/-- The host's calls and the timer phase, then the fetch, then the execution of the decoded instruction; a fetch that
fails ends the step with `AddressOutOfRange` (rules R45, R47, R48). -/
def step (s : State) : Host.Outcome State Fault Refusal :=
  match fetchAdvance (beginStep s) with
  | none => .next ((beginStep s).raise .addressOutOfRange)
  | some (w, t) => exec (decode w) t

/-- `s` with an instruction, numbered as spec/opcode_table.json numbers it, where the next step fetches: the program
bytes a ROM would hold (notes/assumptions/4.md). Where no fetch can happen `PC` goes to its reset value. -/
def State.withFetchWord (s : State) (nbits w : Nat) : State := s.placeWord (BitVec.ofNat 16 (w % 2 ^ nbits))

end Sys2Proof.Machine
end

