-- ==== Sys2Proof/Machine/HostInterface.lean ====
section
/-! DEFINITION. The host's transactions other than `step`, one function each (00_scope.md rules R6, R7); outside its
contract a transaction is refused by name (93_implementation_defined.md U10, notes/assumptions/26.md). -/

namespace Sys2Proof.Machine

/-- `reset(FONT, ROM, now)` of a machine with configuration `cfg` (70_reset_and_hazards.md rules R129, R131): the font
at `0x050`, the ROM at `0x200`, zero elsewhere. A second reset is a new machine: it takes no state (D15). -/
def hostReset (cfg : Configuration) (font rom : List Byte) (now : Nat) : Host.Outcome State Fault Refusal :=
  if font.length ≠ fontBytes then .refused .fontNotEightyBytes
  else if maxRomBytes < rom.length then .refused .romTooLong
  else if cfg.wf then
    .next (State.initial cfg ((Memory.store [] fontBase font).store progBase rom) now)
  else .refused .configurationOutOfRange

/-- `setKey(index, pressed)` (44_keys_timers.md rule R99). -/
def hostSetKey (index : Nat) (pressed : Bool) (s : State) : Host.Outcome State Fault Refusal :=
  if h : index < 16 then .next (hostCalls [.setKey ⟨index, h⟩ pressed] s) else .refused .keyIndexOutOfRange

/-- What `snapshot()` returns: the dimensions and the value of every cell (43_random_draw.md rule R97). -/
structure Snapshot where
  width : Nat
  height : Nat
  cells : Grid
  deriving DecidableEq, Repr

/-- `snapshot()`: a read-only view (rule R97). -/
def snapshot (s : State) : Snapshot := { width := s.cfg.width, height := s.cfg.height, cells := s.fb }

/-- `consumeChanged()`: the changed flag, and the state with it cleared (rule R98). -/
def consumeChanged (s : State) : Bool × State := (s.changed, hostCalls [.consumeChanged] s)

end Sys2Proof.Machine
end

