-- ==== Sys2Proof/WellFormed.lean ====
section
/-! DEFINITION. Which instructions are the meaning of a word. Every field's range is in its type (Syntax.lean), so
the one check left is on the no-operation: its word is one that no row of the opcode map matches (30_encoding.md
rules R53, R54). The check calls Decode.lean's `unrecognised`, where a repair can reach it. -/

namespace Sys2Proof

/-- The check: a no-operation's word must be unrecognised; every other instruction is well formed. -/
def Instr.isWellFormed : Instr → Bool
  | .cls | .ret | .jp _ | .call _ | .seImm _ _ | .sneImm _ _ | .seReg _ _ | .ldImm _ _ | .addImm _ _ => true
  | .ldReg _ _ | .orReg _ _ | .andReg _ _ | .xorReg _ _ | .addReg _ _ | .subReg _ _ | .shr _ _ => true
  | .subnReg _ _ | .shl _ _ | .sneReg _ _ | .ldI _ | .jpV0 _ | .rnd _ _ | .drw _ _ _ | .skp _ | .sknp _ => true
  | .ldVxDt _ | .ldVxK _ | .ldDtVx _ | .ldStVx _ | .addI _ | .ldF _ | .ldB _ | .dump _ | .load _ => true
  | .nop w => unrecognised w

/-- An instruction that is the meaning of some word. -/
abbrev Instr.WellFormed (i : Instr) : Prop := i.isWellFormed = true

end Sys2Proof
end

