-- ==== Sys2Proof/Safety.lean ====
section
/-! DEFINITION. What a safe run is, the invariant of the machine, and the terms the statements use. -/

namespace Sys2Proof.Machine

/-! ## Safe steps and the invariant -/

/-- A safe step: the machine goes on. A failed step (`result = err e`) is one: the host decides what follows it
(60_exceptions.md rules R111, R115). -/
def State.Safe (s : State) : Prop := ∃ t, step s = .next t

/-- The highest value `PC` reaches (10_state.md rules R12, R25). -/
def pcLimit (cfg : Configuration) : Nat :=
  match cfg.pcOverrunPolicy with
  | .report => 0x10FE
  | .wrap => 0xFFF

/-- The highest return address a call pushes (40_control_flow.md rules R60, R62). -/
def returnLimit (cfg : Configuration) : Nat :=
  match cfg.pcOverrunPolicy with
  | .report => 0x1000
  | .wrap => 0xFFF

/-- The invariant of rule R25 as far as it is not in the fields' types, with the form of the model's own data: the
configuration is legal, memory is canonical, `I` holds 12 bits, the grid is `H` rows of `W` cells, `PC` and the
return addresses stay in their range. -/
structure State.Inv (s : State) : Prop where
  cfg : s.cfg.wf
  mem : Memory.wf s.mem
  i : s.i.toNat ≤ 0xFFF
  fb : Grid.hasShape s.fb s.cfg.width s.cfg.height
  pc : s.pc.toNat ≤ pcLimit s.cfg
  stack : ∀ k : Fin 16, s.stack[k].toNat ≤ returnLimit s.cfg

/-! ## What an instruction does to a state -/

/-- Every byte of memory reads as before. -/
def SameBytes (s t : State) : Prop := ∀ a, t.byteAt a = s.byteAt a

/-- `i` completes at `s` with `b` in `V[x]`; every other register, every byte of memory and all other state is
unchanged. -/
def WritesReg (i : Instr) (s : State) (x : Reg) (b : Byte) : Prop :=
  ∃ t, exec i s = .next t ∧ t.reg x = b ∧ (∀ r, r ≠ x → t.reg r = s.reg r) ∧
    t = { s with v := t.v } ∧ SameBytes s t

/-- `i` completes at `s` with `b` in `V[x]` and then 1 or 0 in `VF` as `f` holds or not, the flag staying where `x` is
`VF`; every other register, every byte of memory and all other state is unchanged. -/
def WritesRegFlag (i : Instr) (s : State) (x : Reg) (b : Byte) (f : Prop) : Prop :=
  ∃ t, exec i s = .next t ∧ (x ≠ Reg.vf → t.reg x = b) ∧
    (f → t.reg Reg.vf = 1) ∧ (¬ f → t.reg Reg.vf = 0) ∧
    (∀ r, r ≠ x → r ≠ Reg.vf → t.reg r = s.reg r) ∧ t = { s with v := t.v } ∧ SameBytes s t

/-- `i` at `s` (whose `PC` is the fetch-advanced one) goes on by one more instruction when `c` holds, and else leaves
everything as it is; where the skipped word would lie beyond memory under `report` the step fails instead and `PC`
stays. -/
def SkipsWhen (i : Instr) (s : State) (c : Prop) : Prop :=
  (¬ c → exec i s = .next s) ∧
  (c → s.cfg.pcOverrunPolicy = .report → s.pc.toNat ≤ 0xFFE →
    ∃ t, exec i s = .next t ∧ t.pc.toNat = s.pc.toNat + 2 ∧ t = { s with pc := t.pc } ∧ SameBytes s t) ∧
  (c → s.cfg.pcOverrunPolicy = .wrap →
    ∃ t, exec i s = .next t ∧ t.pc.toNat = (s.pc.toNat + 2) % 4096 ∧ t = { s with pc := t.pc } ∧ SameBytes s t) ∧
  (c → s.cfg.pcOverrunPolicy = .report → 0xFFE < s.pc.toNat →
    exec i s = .next { s with result := .err .addressOutOfRange })

/-- Whether an instruction is a skip whose condition holds (rules R64 to R67, R100, R101). -/
def skipTaken : Instr → State → Prop
  | .seImm x nn, s => s.reg x = nn
  | .sneImm x nn, s => s.reg x ≠ nn
  | .seReg x y, s => s.reg x = s.reg y
  | .sneReg x y, s => s.reg x ≠ s.reg y
  | .skp x, s => s.key (s.keyOf x) = true
  | .sknp x, s => s.key (s.keyOf x) = false
  | .cls, _ | .ret, _ | .jp _, _ | .call _, _ | .ldImm _ _, _ | .addImm _ _, _ | .ldReg _ _, _ => False
  | .orReg _ _, _ | .andReg _ _, _ | .xorReg _ _, _ | .addReg _ _, _ | .subReg _ _, _ | .shr _ _, _ => False
  | .subnReg _ _, _ | .shl _ _, _ | .ldI _, _ | .jpV0 _, _ | .rnd _ _, _ | .drw _ _ _, _ | .ldVxDt _, _ => False
  | .ldVxK _, _ | .ldDtVx _, _ | .ldStVx _, _ | .addI _, _ | .ldF _, _ | .ldB _, _ | .dump _, _ => False
  | .load _, _ | .nop _, _ => False

/-! ## Sprites, cell by cell (43_random_draw.md rule R94) -/

/-- Whether a sprite of `n` rows with its effective origin at column `ox` of row `oy` has a set bit on cell
(`r`, `c`): bit 7 of a row is its leftmost pixel. -/
def spriteBit (n : Nat) (row : Nat → Byte) (ox oy r c : Nat) : Bool :=
  decide (oy ≤ r) && decide (r < oy + n) && decide (ox ≤ c) && decide (c < ox + 8) &&
    (row (r - oy)).getLsbD (7 - (c - ox))

/-- `spriteBit` for `Dxyn` at `s`: the sprite's bytes from `I` on, the origin in `V[x]` and `V[y]`, reduced to the
grid (rules R94, R96). -/
def State.drawnBit (s : State) (x y : Reg) (n : Fin 16) (r c : Nat) : Bool :=
  spriteBit n.val (fun k => s.byteAt (s.ea k)) ((s.reg x).toNat % s.cfg.width) ((s.reg y).toNat % s.cfg.height) r c

/-! ## Calls and returns (40_control_flow.md rule R63) -/

/-- Calls one after another: each a fetch-advanced `PC` and a target; between two calls only `PC` may have moved. -/
def runCalls : List (Word × Addr) → State → Option State
  | [], s => some s
  | (p, nnn) :: cs, s =>
    match exec (.call nnn) { s with pc := p } with
    | .next t => runCalls cs t
    | .fault _ => none
    | .refused _ => none

/-- Returns one after another: where each lands, and the state after the last. -/
def runReturns : Nat → State → Option (List Word × State)
  | 0, s => some ([], s)
  | n + 1, s =>
    match exec .ret s with
    | .next t => (runReturns n t).map fun r => (t.pc :: r.1, r.2)
    | .fault _ => none
    | .refused _ => none

end Sys2Proof.Machine
end

