-- ==== Sys2Proof/Certificates/Slice0/Obligations.lean ====
section
/-! DEFINITION. The statements for the provers. In the per-instruction statements the state is the one `exec` gets:
its `PC` is the fetch-advanced one. Where a statement gives the next state `t` as `t = { s with … }`, everything not
named, memory included, is unchanged; `SameBytes` says the latter through the read of one byte too. -/

open Sys2Proof Sys2Proof.Machine

/-! ## Encoding -/

/-- Decoding the word of a well-formed instruction gives it back, with every operand at every value. The bit patterns
are the spec's from general knowledge for 26 rows (notes/assumptions/8.md); that a no-operation keeps its word is the
model's choice (9.md), which words are no-operations rests on the spec's decision D24 (18.md). -/
def Obligations.DecodeOfEncodeIsIdentity : Prop := ∀ i : Instr, i.WellFormed → decode (encode i) = i

/-- Every word is the encoding of the well-formed instruction it decodes to. The bit patterns are the spec's from general
knowledge for 26 rows (G1, notes/assumptions/8.md); that an unrecognised word re-encodes to itself is the model's choice,
a no-operation keeping its word (9.md); that `5xy1` to `5xyF` and `9xy1` to `9xyF` are no-operations is the spec's
decision D24 (18.md). -/
def Obligations.EncodeOfDecodeIsIdentity : Prop := ∀ w : Word, encode (decode w) = w ∧ (decode w).WellFormed

/-- No word is selected by two rows of the opcode map, and the words no row selects are exactly those that decode to
the no-operation. The rows are the spec's G1 and D24 (notes/assumptions/8.md, 18.md), the no-operation with its word is
the model's (9.md). -/
def Obligations.OpcodeMapIsUnambiguous : Prop :=
  ∀ w : Word, (opcodeMap.filter fun r => r.selects w).length ≤ 1 ∧
    ((opcodeMap.filter fun r => r.selects w) = [] ↔ decode w = .nop w)

/-- The unrecognised words are those of the spec's table, group by group. The low nibble of `5xy0` and `9xy0` is the
spec's decision D24 (notes/assumptions/18.md), 26 of the patterns left out are its G1 (8.md). -/
def Obligations.UnrecognisedWordsAreThoseListed : Prop :=
  ∀ w : Word, decode w = .nop w ↔
    (n1 w = 0x0 ∧ w ≠ 0x00E0#16 ∧ w ≠ 0x00EE#16) ∨
    (n1 w = 0x5 ∧ fieldN w ≠ 0x0) ∨
    (n1 w = 0x8 ∧ fieldN w ∈ [0x8, 0x9, 0xA, 0xB, 0xC, 0xD, 0xF]) ∨
    (n1 w = 0x9 ∧ fieldN w ≠ 0x0) ∨
    (n1 w = 0xE ∧ fieldNN w ∉ [0x9E#8, 0xA1#8]) ∨
    (n1 w = 0xF ∧ fieldNN w ∉ [0x07#8, 0x0A#8, 0x15#8, 0x18#8, 0x1E#8, 0x29#8, 0x33#8, 0x55#8, 0x65#8])

/-- A word of each family, written out from its encoding, decodes to its instruction; the first eight patterns are the
document's own, the other encodings are the spec's from general knowledge (G1, notes/assumptions/8.md). That `0x5121`,
a word of major opcode 5 with a low nibble other than 0, is a no-operation is the spec's decision D24
(notes/assumptions/18.md). -/
def Obligations.WordsOfEachFamilyDecode : Prop :=
  decode 0x00EE#16 = .ret ∧ decode 0x1204#16 = .jp 0x204#12 ∧ decode 0x2206#16 = .call 0x206#12 ∧
  decode 0xB300#16 = .jpV0 0x300#12 ∧ decode 0x6005#16 = .ldImm 0 0x05#8 ∧ decode 0x7003#16 = .addImm 0 0x03#8 ∧
  decode 0x8F14#16 = .addReg 15 1 ∧ decode 0x8125#16 = .subReg 1 2 ∧ decode 0x00E0#16 = .cls ∧
  decode 0x4311#16 = .sneImm 3 0x11#8 ∧ decode 0x812E#16 = .shl 1 2 ∧ decode 0xA300#16 = .ldI 0x300#12 ∧
  decode 0xD125#16 = .drw 1 2 5 ∧ decode 0xE0A1#16 = .sknp 0 ∧ decode 0xF30A#16 = .ldVxK 3 ∧
  decode 0xF265#16 = .load 2 ∧ decode 0x5121#16 = .nop 0x5121#16

/-! ## A step -/

/-- When the bytes at `PC` decode to an instruction, which every two bytes do, and the fetch does not lie beyond memory,
a step runs exactly it, after the host's calls and the timer phase, with `PC` moved past its two bytes. The two policies
are the spec's decision D8 (notes/assumptions/20.md), that an odd `PC` is fetched from its D10 (27.md). -/
def Obligations.StepRunsDecodedInstruction : Prop :=
  ∀ (s : State) (i : Instr),
    decodeBytes [s.byteAt s.pc.toNat, s.byteAt (s.pc.toNat + 1)] = .ok (i, []) →
    (s.cfg.pcOverrunPolicy = .report → s.pc.toNat ≤ 0xFFE →
      step s = exec i { beginStep s with pc := s.pc + 2 }) ∧
    (s.cfg.pcOverrunPolicy = .wrap →
      step s = exec i { beginStep s with pc := BitVec.ofNat 16 ((s.pc.toNat + 2) % 4096) })

/-- What a step does before the fetch: the host's calls, its inputs taken from the schedule (the model's own field,
notes/assumptions/2.md), the result set to `Ok`, the timer phase; nothing a program holds changes but the timers and
the key flags, whether the schedule has an entry or is empty. -/
def Obligations.StepBeginsWithHostCallsAndTimerPhase : Prop :=
  ∀ s : State,
    (∀ p ps, s.schedule = p :: ps → beginStep s = timerPhase p.now
      { hostCalls p.calls s with rand := p.rand, result := .ok, schedule := ps, stepIndex := s.stepIndex + 1 }) ∧
    (s.schedule = [] → beginStep s = timerPhase (Config.freeNow s.stepIndex)
      { hostCalls (Config.freeCalls s.stepIndex) s with
        rand := Config.freeRand s.stepIndex, result := .ok, schedule := [], stepIndex := s.stepIndex + 1 }) ∧
    beginStep s = { s with
      dt := (beginStep s).dt, st := (beginStep s).st, ltt := (beginStep s).ltt, keys := (beginStep s).keys,
      changed := (beginStep s).changed, result := .ok, rand := (beginStep s).rand,
      schedule := s.schedule.tail, stepIndex := s.stepIndex + 1 }

/-- The timer phase: when a full period has passed since the last tick each timer above 0 falls by one and `LTT`
advances as `cfg.tickAdvance` says; otherwise nothing changes. What "advance" means and a clock that runs backwards
are the spec's decisions D3, D4 (notes/assumptions/23.md). -/
def Obligations.TimerPhaseCountsDownOncePerDueTick : Prop :=
  ∀ (s : State) (now : Nat),
    ((now < s.ltt ∨ now - s.ltt < s.cfg.tickPeriod) → timerPhase now s = s) ∧
    (s.ltt ≤ now → s.cfg.tickPeriod ≤ now - s.ltt →
      (timerPhase now s).dt.toNat = s.dt.toNat - 1 ∧ (timerPhase now s).st.toNat = s.st.toNat - 1 ∧
      (s.cfg.tickAdvance = .toNow → (timerPhase now s).ltt = now) ∧
      (s.cfg.tickAdvance = .byPeriod → (timerPhase now s).ltt = s.ltt + s.cfg.tickPeriod) ∧
      timerPhase now s = { s with
        dt := (timerPhase now s).dt, st := (timerPhase now s).st, ltt := (timerPhase now s).ltt })

/-- The timer phase comes before execution: `Fx07` in a step whose tick is due reads the decremented value. The schedule
that gives the step's `now` is the model's field (notes/assumptions/2.md), the encoding of `Fx07` the spec's G1
(8.md). -/
def Obligations.DelayTimerReadSeesTickOfSameStep : Prop :=
  ∀ (s : State) (p : StepInputs) (ps : List StepInputs) (x : Reg),
    s.schedule = p :: ps → s.ltt ≤ p.now → s.cfg.tickPeriod ≤ p.now - s.ltt →
    s.fetchFails = false → decode s.wordAtPc = .ldVxDt x →
    ∃ t, step s = .next t ∧ (t.reg x).toNat = s.dt.toNat - 1 ∧ t.dt = t.reg x ∧
      (∀ r, r ≠ x → t.reg r = s.reg r) ∧ t.result = .ok

/-- A fetch with `PC > 0xFFE` under `report` fails the step: the timer phase stands, `PC` is unchanged, nothing else
is written, and the next step fails the same way. The policy and the state left are the spec's decisions D8, D12
(notes/assumptions/20.md, 22.md). -/
def Obligations.FetchBeyondMemoryFailsEveryStep : Prop :=
  ∀ s : State, s.cfg.pcOverrunPolicy = .report → 0xFFE < s.pc.toNat →
    ∃ t, step s = .next t ∧ t = { beginStep s with result := .err .addressOutOfRange } ∧ t.pc = s.pc ∧
      ∃ u, step t = .next u ∧ u.pc = s.pc ∧ u.result = .err .addressOutOfRange

/-- Every state has a next step, and every instruction a next state: no instruction faults or is refused; a failed step
is a next state (notes/assumptions/1.md, 24.md). -/
def Obligations.EveryStepAnswersNext : Prop :=
  (∀ s : State, s.Safe) ∧ ∀ (i : Instr) (s : State), ∃ t, exec i s = .next t

/-- A step fails exactly where the spec's table of exceptions says, with that exception's name; the failing fetch and
skip are the spec's decisions D8, D9 (notes/assumptions/20.md), the full stack is D11 (21.md). -/
def Obligations.StepFailsExactlyAsListed : Prop :=
  ∀ (s t : State) (e : StepError), step s = .next t →
    let u := (beginStep s).advancePc
    let i := decode s.wordAtPc
    (t.result = .err e ↔
      (s.fetchFails = true ∧ e = .addressOutOfRange) ∨
      (s.fetchFails = false ∧
        (((∃ nnn, i = .call nnn) ∧ s.sp.val = 16 ∧ e = .stackOverflow) ∨
         (i = .ret ∧ s.sp.val = 0 ∧ e = .stackUnderflow) ∨
         (skipTaken i u ∧ u.fetchFails = true ∧ e = .addressOutOfRange))))

/-- The result of the step before is not read: after a failed step the machine runs on as after any other. -/
def Obligations.EarlierResultIsNotRead : Prop :=
  ∀ (s : State) (r : StepResult), step { s with result := r } = step s

/-! ## Invariants and whole-machine rules -/

/-- Every step keeps the invariant: legal configuration, canonical memory, 12-bit `I`, the grid's shape, `PC` and the
return addresses in their range. The range of `PC` rests on the spec's decisions D8 and D9 (notes/assumptions/20.md),
the mask of `I` on D19 and D20 (13.md, 14.md). -/
def Obligations.StepKeepsInvariant : Prop := ∀ s t : State, s.Inv → step s = .next t → t.Inv

/-- The state after reset meets the invariant. That `I` and the stack entries are 0 after reset is the spec's decision
D28 (notes/assumptions/5.md); the default grid size is 7.md, the free but positive tick period 4.md. -/
def Obligations.ResetMeetsInvariant : Prop := State.reset.Inv

/-- The configuration is the one given to reset and never changes: no step and no host transaction but reset writes
it. -/
def Obligations.ConfigurationNeverChanges : Prop :=
  (∀ (cfg : Configuration) (font rom : List Byte) (now : Nat) (t : State),
    hostReset cfg font rom now = .next t → t.cfg = cfg) ∧
  (∀ s t : State, step s = .next t → t.cfg = s.cfg) ∧
  (∀ (s t : State) (k : Nat) (b : Bool), hostSetKey k b s = .next t → t.cfg = s.cfg) ∧
  (∀ s : State, (consumeChanged s).2.cfg = s.cfg) ∧
  ∀ (i : Instr) (s t : State), exec i s = .next t → t.cfg = s.cfg

/-- `LTT` never decreases, whatever the host's clock does; that a clock which runs backwards leaves it alone is the
spec's decision D4 (notes/assumptions/23.md). -/
def Obligations.LastTimerTickNeverDecreases : Prop := ∀ s t : State, step s = .next t → s.ltt ≤ t.ltt

/-- In a step that does not load it a timer stays or falls by one, never below 0. -/
def Obligations.TimersFallByAtMostOnePerStep : Prop :=
  ∀ s t : State, step s = .next t →
    ((∀ x, decode s.wordAtPc ≠ .ldDtVx x) → t.dt = s.dt ∨ t.dt.toNat + 1 = s.dt.toNat) ∧
    ((∀ x, decode s.wordAtPc ≠ .ldStVx x) → t.st = s.st ∨ t.st.toNat + 1 = s.st.toNat)

/-- Each piece of state is written by the instructions the spec's state table lists for it and by no other. -/
def Obligations.StateIsWrittenOnlyByItsListedWriters : Prop :=
  ∀ (i : Instr) (s t : State), exec i s = .next t →
    (SameBytes s t ∨ (∃ x, i = .ldB x) ∨ ∃ x, i = .dump x) ∧
    (t.fb = s.fb ∨ i = .cls ∨ ∃ x y n, i = .drw x y n) ∧
    (t.changed = s.changed ∨ i = .cls ∨ ∃ x y n, i = .drw x y n) ∧
    (t.stack = s.stack ∨ ∃ nnn, i = .call nnn) ∧
    (t.sp = s.sp ∨ i = .ret ∨ ∃ nnn, i = .call nnn) ∧
    (t.dt = s.dt ∨ ∃ x, i = .ldDtVx x) ∧
    (t.st = s.st ∨ ∃ x, i = .ldStVx x) ∧
    (t.keys = s.keys ∨ ∃ x, i = .ldVxK x) ∧
    (t.pc = s.pc ∨ i = .ret ∨ (∃ nnn, i = .jp nnn) ∨ (∃ nnn, i = .call nnn) ∨ (∃ nnn, i = .jpV0 nnn) ∨
      skipTaken i s ∨ ∃ x, i = .ldVxK x) ∧
    (t.i = s.i ∨ (∃ nnn, i = .ldI nnn) ∨ (∃ x, i = .addI x) ∨ (∃ x, i = .ldF x) ∨
      s.cfg.dumpLoadIncrementsIndex = true ∧ ((∃ x, i = .dump x) ∨ ∃ x, i = .load x)) ∧
    t.ltt = s.ltt ∧ t.cfg = s.cfg ∧ t.rand = s.rand ∧ t.schedule = s.schedule ∧ t.stepIndex = s.stepIndex

/-- Only `Cxnn` reads the random input: any other instruction does the same whatever it is. That the byte is an input
of the step is the spec's decision D5; the field that holds it is the model's (notes/assumptions/2.md, 3.md). -/
def Obligations.OnlyRandomReadsRandomInput : Prop :=
  ∀ (i : Instr) (s t : State) (b : Byte), (∀ x nn, i ≠ .rnd x nn) → exec i s = .next t →
    exec i { s with rand := b } = .next { t with rand := b }

/-- The fetched word's high byte stands at the lower address, whatever the parity of `PC` (that a fetch at an odd `PC`
succeeds is the spec's decision D10, notes/assumptions/27.md); of the three digits of `Fx33` the hundreds stand at the
lowest address; after `Fx55` the byte of `V[0]` is the high byte of the word at `I`. -/
def Obligations.FetchIsBigEndian : Prop :=
  (∀ s : State, s.pc.toNat ≤ 0xFFE →
    ∃ w t, fetchAdvance s = some (w, t) ∧
      w.toNat = (s.mem.read s.pc.toNat).toNat * 256 + (s.mem.read (s.pc.toNat + 1)).toNat) ∧
  (∀ (s t : State) (x : Reg), exec (.ldB x) s = .next t → (t.byteAt (s.ea 0)).toNat = (s.reg x).toNat / 100) ∧
  (∀ (s t : State) (x : Reg), exec (.dump x) s = .next t →
    hiByte { t with pc := BitVec.ofNat 16 (s.ea 0) }.wordAtPc = s.reg 0)

/-- A byte stored by `Fx33` or `Fx55` is the byte the next step fetches: after the store the next step runs the word at
`PC` of the memory the store left, and where `PC`, or the address after it, is that of a stored byte, the word's high,
or low, byte is that byte. That the stored bytes stand at `I + k` modulo 4096 is the spec's decision D21
(notes/assumptions/15.md); that `Fx55` stores all sixteen registers whatever `x` is is UNVERIFIED (U6, 10.md); that an
odd `PC` is fetched from is the spec's decision D10 (27.md). -/
def Obligations.StoredBytesAreFetched : Prop :=
  ∀ (s t : State) (i : Instr) (x : Reg) (bs : List Byte),
    (i = .ldB x ∧ bs = [BitVec.ofNat 8 ((s.reg x).toNat / 100), BitVec.ofNat 8 ((s.reg x).toNat / 10 % 10),
        BitVec.ofNat 8 ((s.reg x).toNat % 10)]) ∨ (i = .dump x ∧ bs = s.v.toList) →
    exec i s = .next t → t.fetchFails = false →
    step t = exec (decode t.wordAtPc) (beginStep t).advancePc ∧
    ∀ (k : Nat) (b : Byte), bs[k]? = some b →
      (t.pc.toNat % 4096 = s.ea k → hiByte t.wordAtPc = b) ∧
      ((t.pc.toNat + 1) % 4096 = s.ea k → loByte t.wordAtPc = b)

/-- `MemWrite` at any address sets the byte at that address modulo 4096 and no other, and keeps memory canonical; the new
value is what a later read and a later fetch see. -/
def Obligations.MemWriteSetsOneByte : Prop :=
  ∀ (s : State) (a : Nat) (v : Byte),
    let t := { s with mem := s.mem.store a [v] }
    t.byteAt a = v ∧ (∀ a', a' % 4096 ≠ a % 4096 → t.byteAt a' = s.byteAt a') ∧
    (t.pc.toNat % 4096 = a % 4096 → hiByte t.wordAtPc = v) ∧
    ((t.pc.toNat + 1) % 4096 = a % 4096 → loByte t.wordAtPc = v) ∧
    (Memory.wf s.mem → Memory.wf t.mem)

/-! ## Control flow -/

/-- `00EE`: the popped entry goes to `PC` and `SP` falls by one, the entry staying in the stack; with an empty stack the
step fails with `StackUnderflow` and nothing else changes. That `SP` counts entries, so that the popped one is the one
below it, is the spec's decision D11 (notes/assumptions/21.md), the state a failed step leaves its D12 (22.md). -/
def Obligations.ReturnPopsOrUnderflows : Prop :=
  decode 0x00EE#16 = .ret ∧
  ∀ s : State,
    (s.sp = 0 → exec .ret s = .next { s with result := .err .stackUnderflow }) ∧
    ∀ k : Fin 16, s.sp.val = k.val + 1 →
      ∃ t, exec .ret s = .next t ∧ t.sp.val = k.val ∧
        (s.cfg.pcOverrunPolicy = .report → t.pc = s.stack[k]) ∧
        (s.cfg.pcOverrunPolicy = .wrap → t.pc.toNat = s.stack[k].toNat % 4096) ∧
        t = { s with pc := t.pc, sp := t.sp } ∧ SameBytes s t

/-- `1nnn`: `PC` is `nnn`, whatever it is, and nothing else changes; a jump to `0xFFF` makes the next fetch fail under
`report` (the spec's decision D8, notes/assumptions/20.md); a jump to itself keeps the machine where it is, each step
changing nothing but what precedes its fetch (the timers and what the host does). -/
def Obligations.JumpLoadsAddress : Prop :=
  (∀ (nnn : Addr) (s : State),
    decode (0x1#4 ++ nnn) = .jp nnn ∧
    ∃ t, exec (.jp nnn) s = .next t ∧ t.pc.toNat = nnn.toNat ∧ t = { s with pc := t.pc } ∧ SameBytes s t ∧
      (nnn = 0xFFF#12 → s.cfg.pcOverrunPolicy = .report →
        ∃ u, step t = .next u ∧ u.result = .err .addressOutOfRange)) ∧
  ∀ s : State, s.pc.toNat ≤ 0xFFE → s.wordAtPc.toNat = 0x1000 + s.pc.toNat → step s = .next (beginStep s)

/-- `2nnn`: the advanced `PC` goes to the entry at `SP`, `SP` rises by one, `PC` is `nnn`; with a full stack the step
fails with `StackOverflow` and nothing else changes. That `SP` counts entries is the spec's decision D11
(notes/assumptions/21.md). -/
def Obligations.CallPushesOrOverflows : Prop :=
  ∀ (nnn : Addr) (s : State),
    (s.sp.val = 16 → exec (.call nnn) s = .next { s with result := .err .stackOverflow }) ∧
    ∀ k : Fin 16, s.sp.val = k.val →
      ∃ t, exec (.call nnn) s = .next t ∧ t.sp.val = k.val + 1 ∧ t.stack[k] = s.pc ∧
        (∀ j : Fin 16, j ≠ k → t.stack[j] = s.stack[j]) ∧ t.pc.toNat = nnn.toNat ∧
        t = { s with pc := t.pc, sp := t.sp, stack := t.stack } ∧ SameBytes s t

/-- Nested calls followed by as many returns: the returns land on the instructions after the calls in reverse order
and `SP` is back at its starting value; no step fails (the spec derives it from its rules of call and return). That
`SP` counts entries is the spec's decision D11 (notes/assumptions/21.md). -/
def Obligations.NestedCallsReturnInReverseOrder : Prop :=
  ∀ (cs : List (Word × Addr)) (s : State), s.sp.val + cs.length ≤ 16 →
    (s.cfg.pcOverrunPolicy = .wrap → ∀ c ∈ cs, c.1.toNat < 4096) →
    ∃ t u, runCalls cs s = some t ∧ t.sp.val = s.sp.val + cs.length ∧
      runReturns cs.length t = some ((cs.map Prod.fst).reverse, u) ∧ u.sp = s.sp ∧ u.result = s.result ∧
      SameBytes s u

/-- `3xnn`, `4xnn`, `5xy0`, `9xy0`: each skips when its comparison holds. Encodings, conditions and the failing skip
are the spec's G1, D9 (notes/assumptions/8.md, 20.md). -/
def Obligations.RegisterSkipsSkipOnTheirCondition : Prop :=
  ∀ (s : State) (x y : Reg) (nn : Byte),
    SkipsWhen (.seImm x nn) s (s.reg x = nn) ∧ SkipsWhen (.sneImm x nn) s (s.reg x ≠ nn) ∧
    SkipsWhen (.seReg x y) s (s.reg x = s.reg y) ∧ SkipsWhen (.sneReg x y) s (s.reg x ≠ s.reg y)

/-- `Bnnn`: `PC` is `nnn` plus `V[0]`, or plus `V[x]` with `x` the top nibble of `nnn` under `jumpAddsVx`; unmasked
under `report`, modulo 4096 under `wrap`; `VF` is not written. The variant is the spec's D18
(notes/assumptions/7.md), the two policies its D8 (20.md). -/
def Obligations.JumpWithOffsetAddsRegister : Prop :=
  ∀ (nnn : Addr) (s : State),
    ∃ (t : State) (r : Reg), exec (.jpV0 nnn) s = .next t ∧
      (s.cfg.jumpAddsVx = false → r = 0) ∧ (s.cfg.jumpAddsVx = true → r.val = nnn.toNat / 256) ∧
      (s.cfg.pcOverrunPolicy = .report → t.pc.toNat = nnn.toNat + (s.reg r).toNat) ∧
      (s.cfg.pcOverrunPolicy = .wrap → t.pc.toNat = (nnn.toNat + (s.reg r).toNat) % 4096) ∧
      t = { s with pc := t.pc } ∧ SameBytes s t

/-- A word no row of the opcode map matches executes as a no-operation: every bit of it is ignored and nothing
changes but the fetch's advance of `PC` and what precedes the fetch. The map's rows are the spec's G1, D24
(notes/assumptions/8.md, 18.md). -/
def Obligations.UnrecognisedWordDoesNothing : Prop :=
  (∀ (s : State) (w : Word), exec (.nop w) s = .next s) ∧
  ∀ (s : State) (w : Word), unrecognised w = true →
    decode w = .nop w ∧ (s.fetchFails = false → s.wordAtPc = w → step s = .next (beginStep s).advancePc)

/-! ## Registers and arithmetic -/

/-- `6xnn`: the immediate goes to `V[x]`, `VF` included as a destination; nothing else changes. -/
def Obligations.LoadImmediateWritesRegister : Prop :=
  ∀ (s : State) (x : Reg) (nn : Byte),
    decode (0x6#4 ++ BitVec.ofNat 4 x.val ++ nn) = .ldImm x nn ∧ WritesReg (.ldImm x nn) s x nn

/-- `7xnn`: `V[x] + nn` modulo 256 goes to `V[x]`; no flag is written, whatever the sum. -/
def Obligations.AddImmediateWrapsWithoutFlag : Prop :=
  ∀ (s : State) (x : Reg) (nn : Byte),
    decode (0x7#4 ++ BitVec.ofNat 4 x.val ++ nn) = .addImm x nn ∧
    WritesReg (.addImm x nn) s x (BitVec.ofNat 8 (((s.reg x).toNat + nn.toNat) % 256))

/-- `8xy0` to `8xy3`: copy, or, and, exclusive or; `VF` is left alone (the spec's decision D17,
notes/assumptions/12.md), the encodings are G1 (notes/assumptions/8.md). -/
def Obligations.CopyAndLogicWriteRegisterOnly : Prop :=
  ∀ (s : State) (x y : Reg),
    WritesReg (.ldReg x y) s x (s.reg y) ∧
    WritesReg (.orReg x y) s x (BitVec.ofNat 8 ((s.reg x).toNat ||| (s.reg y).toNat)) ∧
    WritesReg (.andReg x y) s x (BitVec.ofNat 8 ((s.reg x).toNat &&& (s.reg y).toNat)) ∧
    WritesReg (.xorReg x y) s x (BitVec.ofNat 8 ((s.reg x).toNat ^^^ (s.reg y).toNat))

/-- `8xy4`: the sum modulo 256 and the carry, for every choice of registers; the flag is written last (the spec's
decision D16, notes/assumptions/11.md). -/
def Obligations.AddRegistersSetsCarry : Prop :=
  ∀ (s : State) (x y : Reg),
    WritesRegFlag (.addReg x y) s x (BitVec.ofNat 8 (((s.reg x).toNat + (s.reg y).toNat) % 256))
      (255 < (s.reg x).toNat + (s.reg y).toNat)

/-- `8xy5` and `8xy7`: the difference modulo 256 and the not-borrow flag, for every choice of registers; the flag is
written last (D16, notes/assumptions/11.md). -/
def Obligations.SubtractRegistersSetsNotBorrow : Prop :=
  ∀ (s : State) (x y : Reg),
    WritesRegFlag (.subReg x y) s x (BitVec.ofNat 8 ((256 + (s.reg x).toNat - (s.reg y).toNat) % 256))
      ((s.reg y).toNat ≤ (s.reg x).toNat) ∧
    WritesRegFlag (.subnReg x y) s x (BitVec.ofNat 8 ((256 + (s.reg y).toNat - (s.reg x).toNat) % 256))
      ((s.reg x).toNat ≤ (s.reg y).toNat)

/-- `8xy6` and `8xyE`: the source (`V[y]` under `shiftUsesCopy`, else `V[x]`: D18, notes/assumptions/7.md) halved or
doubled modulo 256, and the bit shifted out in `VF`, written last (D16, notes/assumptions/11.md). -/
def Obligations.ShiftsMoveOneBitIntoFlag : Prop :=
  ∀ (s : State) (x y : Reg) (b : Byte),
    (s.cfg.shiftUsesCopy = true → b = s.reg y) → (s.cfg.shiftUsesCopy = false → b = s.reg x) →
    WritesRegFlag (.shr x y) s x (BitVec.ofNat 8 (b.toNat / 2)) (b.toNat % 2 = 1) ∧
    WritesRegFlag (.shl x y) s x (BitVec.ofNat 8 (b.toNat * 2 % 256)) (128 ≤ b.toNat)

/-! ## Index register and memory -/

/-- `Annn` and `Fx29`: `I` is the immediate, or the address of the glyph of the low four bits of `V[x]`; nothing else
changes. -/
def Obligations.IndexLoadsWriteIndexOnly : Prop :=
  ∀ (s : State) (x : Reg) (nnn : Addr),
    (∃ t, exec (.ldI nnn) s = .next t ∧ t.i.toNat = nnn.toNat ∧ t = { s with i := t.i } ∧ SameBytes s t) ∧
    (∃ t, exec (.ldF x) s = .next t ∧ t.i.toNat = 0x050 + ((s.reg x).toNat % 16) * 5 ∧
      t = { s with i := t.i } ∧ SameBytes s t)

/-- `Fx1E`: `I` is the sum modulo 4096; under `indexAddSetsVF` `VF` is 1 or 0 as the sum passed `0xFFF` or not, else no
register is written. The 0 and the mask are the spec's decision D19 (notes/assumptions/13.md). -/
def Obligations.IndexAddWrapsAndSetsOverflow : Prop :=
  ∀ (s : State) (x : Reg),
    ∃ t, exec (.addI x) s = .next t ∧ t.i.toNat = (s.i.toNat + (s.reg x).toNat) % 4096 ∧
      (s.cfg.indexAddSetsVF = true → 0xFFF < s.i.toNat + (s.reg x).toNat → t.reg Reg.vf = 1) ∧
      (s.cfg.indexAddSetsVF = true → s.i.toNat + (s.reg x).toNat ≤ 0xFFF → t.reg Reg.vf = 0) ∧
      (s.cfg.indexAddSetsVF = false → t.v = s.v) ∧
      (∀ r, r ≠ Reg.vf → t.reg r = s.reg r) ∧ t = { s with i := t.i, v := t.v } ∧ SameBytes s t

/-- `Fx33`: the three decimal digits of `V[x]` go to `I`, `I + 1`, `I + 2`, each address modulo 4096 (the spec's
decision D21, notes/assumptions/15.md); every other byte reads as before and nothing else changes. -/
def Obligations.DecimalConversionStoresThreeDigits : Prop :=
  ∀ (s : State) (x : Reg),
    ∃ t, exec (.ldB x) s = .next t ∧
      (t.byteAt (s.ea 0)).toNat = (s.reg x).toNat / 100 ∧
      (t.byteAt (s.ea 1)).toNat = (s.reg x).toNat / 10 % 10 ∧
      (t.byteAt (s.ea 2)).toNat = (s.reg x).toNat % 10 ∧
      (∀ a, a < 4096 → (∀ k, k < 3 → a ≠ s.ea k) → t.byteAt a = s.byteAt a) ∧
      t = { s with mem := t.mem }

/-- `Fx55`: all sixteen registers go to `I` to `I + 15`, each address modulo 4096, whatever `x` is; every other byte
reads as before; `I` advances by 16 modulo 4096 under `dumpLoadIncrementsIndex` (D20, notes/assumptions/14.md) and is
else unchanged; nothing else changes. That `x` is ignored is UNVERIFIED (U6, notes/assumptions/10.md), the wrap of the
addresses D21 (15.md). -/
def Obligations.RegisterDumpStoresAllRegisters : Prop :=
  ∀ (s : State) (x : Reg),
    ∃ t, exec (.dump x) s = .next t ∧
      (∀ k : Fin 16, t.byteAt (s.ea k.val) = s.reg k) ∧
      (∀ a, a < 4096 → (∀ k, k < 16 → a ≠ s.ea k) → t.byteAt a = s.byteAt a) ∧
      (s.cfg.dumpLoadIncrementsIndex = false → t.i = s.i) ∧
      (s.cfg.dumpLoadIncrementsIndex = true → t.i.toNat = (s.i.toNat + 16) % 4096) ∧
      t = { s with mem := t.mem, i := t.i }

/-- `Fx65`: all sixteen registers, `VF` included, are loaded from `I` to `I + 15`, each address modulo 4096, whatever
`x` is (UNVERIFIED, U6, notes/assumptions/10.md; D21, 15.md); `I` as for `Fx55` (D20, 14.md); memory
and all other state is unchanged. -/
def Obligations.RegisterLoadReadsAllRegisters : Prop :=
  ∀ (s : State) (x : Reg),
    ∃ t, exec (.load x) s = .next t ∧
      (∀ k : Fin 16, t.reg k = s.byteAt (s.ea k.val)) ∧
      (s.cfg.dumpLoadIncrementsIndex = false → t.i = s.i) ∧
      (s.cfg.dumpLoadIncrementsIndex = true → t.i.toNat = (s.i.toNat + 16) % 4096) ∧
      t = { s with v := t.v, i := t.i } ∧ SameBytes s t

/-- A dump and a later load through the same index address, with memory as the dump left it, give back all sixteen
registers (all sixteen: U6, notes/assumptions/10.md; addresses modulo 4096: D21, 15.md). -/
def Obligations.DumpThenLoadRestoresRegisters : Prop :=
  ∀ (s t u : State) (x x' : Reg), exec (.dump x) s = .next t → u.mem = t.mem → u.i = s.i →
    ∃ w, exec (.load x') u = .next w ∧ ∀ r, w.reg r = s.reg r

/-! ## Random, clear, draw -/

/-- `Cxnn`: the step's random input masked with `nn`, whatever the input is (the spec's decision D5,
notes/assumptions/2.md, 3.md). -/
def Obligations.RandomLoadsMaskedInput : Prop :=
  ∀ (s : State) (x : Reg) (nn : Byte),
    WritesReg (.rnd x nn) s x (BitVec.ofNat 8 (s.rand.toNat &&& nn.toNat))

/-- Clearing, which `00E0` does: every cell is 0 and the changed flag is set, whatever the grid held; a snapshot then
shows an all-zero grid of the configured dimensions; nothing else changes. -/
def Obligations.ClearBlanksGridAndMarksChanged : Prop :=
  ∀ s : State,
    ∃ t, exec .cls s = .next t ∧ t = fbClear s ∧ (∀ r c, t.fb.cell r c = false) ∧
      Grid.hasShape t.fb s.cfg.width s.cfg.height ∧ t.changed = true ∧
      (snapshot t).width = s.cfg.width ∧ (snapshot t).height = s.cfg.height ∧ (snapshot t).cells = t.fb ∧
      t = { s with fb := t.fb, changed := t.changed } ∧ SameBytes s t

/-- `Dxyn`: every cell under a set bit of the sprite flips and no other; what passes the right or the bottom edge is
clipped; `VF` is 1 if a flipped cell was on, else 0; the changed flag is set if a cell flipped and else left alone
(the spec's decision D25, notes/assumptions/19.md); nothing else changes. The sprite's bytes are read from `I` on with
addresses modulo 4096 (the spec's decision D21, notes/assumptions/15.md). -/
def Obligations.DrawFlipsCellsUnderSetBits : Prop :=
  ∀ (s : State) (x y : Reg) (n : Fin 16), s.cfg.wf → Grid.hasShape s.fb s.cfg.width s.cfg.height →
    ∃ t, exec (.drw x y n) s = .next t ∧
      Grid.hasShape t.fb s.cfg.width s.cfg.height ∧
      (∀ r c, r < s.cfg.height → c < s.cfg.width →
        t.fb.cell r c = (s.fb.cell r c ^^ s.drawnBit x y n r c)) ∧
      ((∃ r c, r < s.cfg.height ∧ c < s.cfg.width ∧ s.drawnBit x y n r c = true ∧ s.fb.cell r c = true) →
        t.reg Reg.vf = 1) ∧
      ((∀ r c, r < s.cfg.height → c < s.cfg.width → s.drawnBit x y n r c = true → s.fb.cell r c = false) →
        t.reg Reg.vf = 0) ∧
      ((∃ r c, r < s.cfg.height ∧ c < s.cfg.width ∧ s.drawnBit x y n r c = true) → t.changed = true) ∧
      ((∀ r c, r < s.cfg.height → c < s.cfg.width → s.drawnBit x y n r c = false) → t.changed = s.changed) ∧
      (∀ r, r ≠ Reg.vf → t.reg r = s.reg r) ∧
      t = { s with fb := t.fb, changed := t.changed, v := t.v } ∧ SameBytes s t

/-- Drawing twice with identical arguments restores the grid, and the second draw reports a collision exactly when the
first turned a cell on. -/
def Obligations.DrawTwiceRestoresGrid : Prop :=
  ∀ (s : State) (rows : List Byte) (ox oy : Byte), s.cfg.wf → Grid.hasShape s.fb s.cfg.width s.cfg.height →
    let first := (fbDraw rows ox oy s).2
    let second := fbDraw rows ox oy first
    second.2.fb = s.fb ∧
    (second.1 = true ↔ ∃ r c, r < s.cfg.height ∧ c < s.cfg.width ∧
      s.fb.cell r c = false ∧ first.fb.cell r c = true)

/-! ## Keys and timers -/

/-- `Ex9E` and `ExA1`: each skips when the key that the low four bits of `V[x]` select is pressed, or is not; the key
is read, not cleared. The low four bits are the spec's decision D22 (notes/assumptions/16.md); that a taken skip beyond
memory fails with `PC` in place is its decision D9 (20.md). -/
def Obligations.KeySkipsTestSelectedKey : Prop :=
  ∀ (s : State) (x : Reg) (k : Key), (s.reg x).toNat % 16 = k.val →
    SkipsWhen (.skp x) s (s.key k = true) ∧ SkipsWhen (.sknp x) s (s.key k = false)

/-- `Fx0A` with a key pressed: the least pressed key's number goes to `V[x]` (the spec's decision D23,
notes/assumptions/17.md), that key is cleared, nothing else changes. -/
def Obligations.KeyWaitReportsAndClearsLeastKey : Prop :=
  ∀ (s : State) (x : Reg) (k : Key), s.key k = true → (∀ j, j < k → s.key j = false) →
    ∃ t, exec (.ldVxK x) s = .next t ∧ (t.reg x).toNat = k.val ∧ (∀ r, r ≠ x → t.reg r = s.reg r) ∧
      t.key k = false ∧ (∀ j, j ≠ k → t.key j = s.key j) ∧ t = { s with v := t.v, keys := t.keys } ∧ SameBytes s t

/-- `Fx0A` with no key pressed: the step returns normally with `PC` back on the instruction and nothing changed by it.
The first clause says it of one execution, the second of a whole step. The two policies are the spec's decision D8
(notes/assumptions/20.md); a `PC` below 2, which no run reaches under `report`, is left out (28.md). -/
def Obligations.KeyWaitRewindsWithoutKey : Prop :=
  (∀ (s : State) (x : Reg), (∀ k, s.key k = false) →
    ∃ t, exec (.ldVxK x) s = .next t ∧
      (s.cfg.pcOverrunPolicy = .report → 2 ≤ s.pc.toNat → t.pc.toNat = s.pc.toNat - 2) ∧
      (s.cfg.pcOverrunPolicy = .wrap → t.pc.toNat = (s.pc.toNat + 4094) % 4096) ∧
      t = { s with pc := t.pc } ∧ SameBytes s t) ∧
  (∀ (s : State) (x : Reg), s.fetchFails = false → s.pc.toNat < 4096 → decode s.wordAtPc = .ldVxK x →
    (∀ k, (beginStep s).key k = false) → step s = .next (beginStep s) ∧ (beginStep s).pc = s.pc)

/-- `Fx07`, `Fx15`, `Fx18`: the copies between `V[x]` and the timers; nothing else changes, `LTT` among it. -/
def Obligations.TimerTransfersCopyOneByte : Prop :=
  ∀ (s : State) (x : Reg),
    WritesReg (.ldVxDt x) s x s.dt ∧
    (∃ t, exec (.ldDtVx x) s = .next t ∧ t.dt = s.reg x ∧ t = { s with dt := t.dt } ∧ SameBytes s t) ∧
    (∃ t, exec (.ldStVx x) s = .next t ∧ t.st = s.reg x ∧ t = { s with st := t.st } ∧ SameBytes s t)

/-! ## The host -/

/-- `setKey` writes one key flag and nothing else; an index above 15 is refused (the spec's decision D6,
notes/assumptions/26.md). -/
def Obligations.SetKeyWritesOneFlag : Prop :=
  ∀ (s : State) (pressed : Bool),
    (∀ k : Key, ∃ t, hostSetKey k.val pressed s = .next t ∧ t.key k = pressed ∧
      (∀ j, j ≠ k → t.key j = s.key j) ∧ t = { s with keys := t.keys }) ∧
    ∀ k, 16 ≤ k → hostSetKey k pressed s = .refused .keyIndexOutOfRange

/-- `consumeChanged` returns the changed flag and clears it, and does nothing else; asked again it returns false. It is
the only thing that clears the flag: no instruction, no key call and no step without a `consumeChanged` among the host's
calls does. No instruction can observe whether the host has asked: with another flag it does the same but for the flag
itself. -/
def Obligations.ConsumeChangedReturnsAndClears : Prop :=
  (∀ s : State, (consumeChanged s).1 = s.changed ∧ (consumeChanged s).2 = { s with changed := false } ∧
    (consumeChanged (consumeChanged s).2).1 = false) ∧
  (∀ (s t : State) (k : Nat) (b : Bool), hostSetKey k b s = .next t → t.changed = s.changed) ∧
  (∀ s t : State, step s = .next t → HostCall.consumeChanged ∉ s.nextInputs.calls →
    s.changed = true → t.changed = true) ∧
  ∀ (i : Instr) (s t : State), exec i s = .next t →
    (s.changed = true → t.changed = true) ∧
    ∀ b, ∃ c, exec i { s with changed := b } = .next { t with changed := c }

/-- A snapshot shows the dimensions and every cell as they are and changes no state. -/
def Obligations.SnapshotShowsEveryCell : Prop :=
  ∀ s : State, (snapshot s).width = s.cfg.width ∧ (snapshot s).height = s.cfg.height ∧
    (∀ r c, (snapshot s).cells.cell r c = s.fb.cell r c) ∧ hostCalls [.snapshot] s = s

/-- The calls a step serves first do what the host's transactions do one after another. -/
def Obligations.ScheduledCallsActLikeTransactions : Prop :=
  ∀ (s : State) (cs : List HostCall),
    hostCalls [] s = s ∧ hostCalls (.snapshot :: cs) s = hostCalls cs s ∧
    hostCalls (.consumeChanged :: cs) s = hostCalls cs (consumeChanged s).2 ∧
    ∀ (k : Key) (b : Bool) (t : State), hostSetKey k.val b s = .next t →
      hostCalls (.setKey k b :: cs) s = hostCalls cs t

/-- Reset with a font of 80 bytes and a ROM that fits: the font at `0x050`, the ROM at `0x200`, 0 elsewhere, `PC` at
`0x200`, an empty stack, a blank grid, `LTT` at `now`, and the invariant. Registers, timers, keys, the changed flag and
the other memory are 0, and `LTT` is `now`, by the spec's decisions D28 to D31 (notes/assumptions/4.md to 6.md). -/
def Obligations.ResetPlacesFontAndRom : Prop :=
  ∀ (cfg : Configuration) (font rom : List Byte) (now : Nat), cfg.wf → font.length = 80 → rom.length ≤ 3584 →
    ∃ t, hostReset cfg font rom now = .next t ∧
      (∀ j, j < 80 → t.byteAt (0x050 + j) = font.getD j 0) ∧
      (∀ j, j < rom.length → t.byteAt (0x200 + j) = rom.getD j 0) ∧
      (∀ a, a < 4096 → (a < 0x050 ∨ 0x09F < a) → (a < 0x200 ∨ 0x200 + rom.length ≤ a) → t.byteAt a = 0) ∧
      t.pc = 0x200#16 ∧ t.sp = 0 ∧ (∀ r c, t.fb.cell r c = false) ∧ t.ltt = now ∧ t.cfg = cfg ∧
      (∀ r, t.reg r = 0) ∧ t.i = 0 ∧ (∀ k : Fin 16, t.stack[k] = 0) ∧ t.dt = 0 ∧ t.st = 0 ∧
      (∀ k, t.key k = false) ∧ t.changed = false ∧ t.Inv

/-- Outside its contract a reset is refused (the model's choice, notes/assumptions/26.md). -/
def Obligations.ResetRefusesBrokenContract : Prop :=
  ∀ (cfg : Configuration) (font rom : List Byte) (now : Nat),
    (font.length ≠ 80 → hostReset cfg font rom now = .refused .fontNotEightyBytes) ∧
    (font.length = 80 → 3584 < rom.length → hostReset cfg font rom now = .refused .romTooLong) ∧
    (font.length = 80 → rom.length ≤ 3584 → ¬ cfg.wf →
      hostReset cfg font rom now = .refused .configurationOutOfRange)

/-- The state after reset: `PC` at `0x200`, an empty stack, a blank 64 by 32 grid (the default size,
notes/assumptions/7.md), and the five bytes of glyph `d` of the default font at `0x050 + 5 * d` for all sixteen glyphs
(the spec's table from general knowledge, G3, notes/assumptions/6.md). -/
def Obligations.ResetStateHoldsDocumentedValues : Prop :=
  State.reset.pc = 0x200#16 ∧ State.reset.sp = 0 ∧ Grid.hasShape State.reset.fb 64 32 ∧
  (∀ r c, State.reset.fb.cell r c = false) ∧
  ((List.range 16).map fun d => (List.range 5).map fun k => State.reset.byteAt (0x050 + 5 * d + k)) =
    ( [ [0xF0, 0x90, 0x90, 0x90, 0xF0], [0x20, 0x60, 0x20, 0x20, 0x70],
        [0xF0, 0x10, 0xF0, 0x80, 0xF0], [0xF0, 0x10, 0xF0, 0x10, 0xF0],
        [0x90, 0x90, 0xF0, 0x10, 0x10], [0xF0, 0x80, 0xF0, 0x10, 0xF0],
        [0xF0, 0x80, 0xF0, 0x90, 0xF0], [0xF0, 0x10, 0x20, 0x40, 0x40] ] ++
      [ [0xF0, 0x90, 0xF0, 0x90, 0xF0], [0xF0, 0x90, 0xF0, 0x10, 0xF0],
        [0xF0, 0x90, 0xF0, 0x90, 0x90], [0xE0, 0x90, 0xE0, 0x90, 0xE0],
        [0xF0, 0x80, 0x80, 0x80, 0xF0], [0xE0, 0x90, 0x90, 0x90, 0xE0],
        [0xF0, 0x80, 0xF0, 0x80, 0xF0], [0xF0, 0x80, 0xF0, 0x80, 0x80] ] : List (List Byte))
end

