-- ==== Sys2Proof/Laws/Framebuffer.lean ====
section
/-! SUPPORT. The laws of the framebuffer: what a flip does to each cell, which cells a sprite flips, and everything a
draw can do (43_random_draw.md rules R92, R94). -/

namespace Sys2Proof.Machine

/-! ## Cells -/

theorem Grid.cell_blank (w h r c : Nat) : (Grid.blank w h).cell r c = false := by
  simp only [Grid.cell, Grid.blank, List.getD_eq_getElem?_getD, List.getElem?_replicate]
  split
  · rw [Option.getD_some, List.getElem?_replicate]; split <;> rfl
  · rfl

theorem Grid.blank_hasShape (w h : Nat) : (Grid.blank w h).hasShape w h := by
  refine ⟨by simp [Grid.blank], fun row hrow => ?_⟩
  simp only [Grid.blank, List.mem_replicate] at hrow
  simp [hrow.2]

theorem Grid.flip_hasShape {g : Grid} {w h : Nat} (hg : g.hasShape w h) (r c : Nat) : (g.flip r c).hasShape w h := by
  refine ⟨by simpa [Grid.flip] using hg.1, fun row hrow => ?_⟩
  obtain ⟨k, hk, rfl⟩ := List.mem_iff_getElem.mp hrow
  have hk' : k < g.length := by simpa [Grid.flip] using hk
  have hlen := hg.2 _ (List.getElem_mem hk')
  simp only [Grid.flip, List.getElem_modify]
  split <;> simpa using hlen

/-- A flip of a cell of the grid changes that cell and no other. -/
theorem Grid.cell_flip {g : Grid} {w h : Nat} (hg : g.hasShape w h) {r c : Nat} (hr : r < h) (hc : c < w)
    (r' c' : Nat) : (g.flip r c).cell r' c' = (g.cell r' c' ^^ decide (r' = r ∧ c' = c)) := by
  have hr' : r < g.length := hg.1 ▸ hr
  have hrow : g[r].length = w := hg.2 _ (List.getElem_mem hr')
  by_cases e : r' = r
  · subst e
    by_cases ec : c' = c
    · subst ec
      simp [Grid.cell, Grid.flip, hr', hrow, hc]
    · simp [Grid.cell, Grid.flip, hr', ec, Ne.symm ec]
  · simp [Grid.cell, Grid.flip, e, Ne.symm e]

/-! ## The cells of a sprite -/

theorem mem_rowPixels {w h ox yy : Nat} {bits : Byte} {p : Nat × Nat} :
    p ∈ rowPixels w h ox yy bits ↔
      p.1 = yy ∧ yy < h ∧ ox ≤ p.2 ∧ p.2 < ox + 8 ∧ p.2 < w ∧ bits.getLsbD (7 - (p.2 - ox)) = true := by
  simp only [rowPixels, List.mem_map, List.mem_filter, List.mem_range, Bool.and_eq_true, decide_eq_true_eq]
  constructor
  · rintro ⟨c, ⟨h8, ⟨hy, hx⟩, hb⟩, rfl⟩
    exact ⟨rfl, hy, by simp, by simpa using h8, hx, by simpa using hb⟩
  · rintro ⟨hp, hy, h1, h2, hx, hb⟩
    refine ⟨p.2 - ox, ⟨by omega, ⟨hy, by omega⟩, hb⟩, ?_⟩
    ext
    · exact hp.symm
    · show ox + (p.2 - ox) = p.2; omega

/-- The cells a sprite flips: those inside the grid under a set bit of one of its rows. -/
theorem mem_spritePixels {w h ox yy : Nat} {rows : List Byte} {p : Nat × Nat} :
    p ∈ spritePixels w h ox yy rows ↔
      yy ≤ p.1 ∧ p.1 < yy + rows.length ∧ p.1 < h ∧ ox ≤ p.2 ∧ p.2 < ox + 8 ∧ p.2 < w ∧
        (rows.getD (p.1 - yy) 0).getLsbD (7 - (p.2 - ox)) = true := by
  induction rows generalizing yy with
  | nil =>
    simp only [spritePixels, List.not_mem_nil, List.length_nil, false_iff]
    omega
  | cons bits rows ih =>
    rw [spritePixels, List.mem_append, mem_rowPixels, ih]
    constructor
    · rintro (⟨hp, hy, h1, h2, hx, hb⟩ | ⟨h0, h1, h2, h3, h4, h5, hb⟩)
      · subst hp
        exact ⟨le_refl _, by simp, hy, h1, h2, hx, by simpa using hb⟩
      · refine ⟨by omega, by simp; omega, h2, h3, h4, h5, ?_⟩
        rw [show p.1 - yy = (p.1 - (yy + 1)) + 1 by omega]
        simpa using hb
    · rintro ⟨h0, h1, h2, h3, h4, h5, hb⟩
      rcases Nat.eq_or_lt_of_le h0 with e | hlt
      · left
        refine ⟨e.symm, by omega, h3, h4, h5, ?_⟩
        simpa [← e] using hb
      · right
        refine ⟨hlt, by simp at h1; omega, h2, h3, h4, h5, ?_⟩
        rw [show p.1 - yy = (p.1 - (yy + 1)) + 1 by omega] at hb
        simpa using hb

/-- No cell is visited twice (rule R94). -/
theorem nodup_spritePixels (w h ox yy : Nat) (rows : List Byte) : (spritePixels w h ox yy rows).Nodup := by
  induction rows generalizing yy with
  | nil => simp [spritePixels]
  | cons bits rows ih =>
    rw [spritePixels, List.nodup_append]
    refine ⟨?_, ih _, ?_⟩
    · rw [rowPixels]
      refine List.Nodup.map (fun a b hab => ?_) (List.nodup_range.filter _)
      have := congrArg Prod.snd hab
      simpa using this
    · rintro p hp q hq rfl
      have h1 := (mem_rowPixels.mp hp).1
      have h2 := (mem_spritePixels.mp hq).1
      omega

/-! ## A draw -/

/-- What drawing a list of different cells of the grid does: each of them flips and no other cell, the collision is
that one of them was on, the grid keeps its shape. -/
theorem foldl_pixel {w h : Nat} (ps : List (Nat × Nat)) (hin : ∀ p ∈ ps, p.1 < h ∧ p.2 < w) (hnd : ps.Nodup)
    (d : Drawing) (hd : d.grid.hasShape w h) :
    (ps.foldl Drawing.pixel d).grid.hasShape w h ∧
    (∀ r c, (ps.foldl Drawing.pixel d).grid.cell r c = (d.grid.cell r c ^^ decide ((r, c) ∈ ps))) ∧
    ((ps.foldl Drawing.pixel d).collision = true ↔
      d.collision = true ∨ ∃ p ∈ ps, d.grid.cell p.1 p.2 = true) ∧
    ((ps.foldl Drawing.pixel d).flipped = true ↔ d.flipped = true ∨ ps ≠ []) := by
  induction ps generalizing d with
  | nil => exact ⟨hd, by simp, by simp, by simp⟩
  | cons p ps ih =>
    have hp := hin p (by simp)
    have hnd' := List.nodup_cons.mp hnd
    have hflip := Grid.cell_flip hd hp.1 hp.2
    obtain ⟨hs, hcell, hcol, hfl⟩ := ih (fun q hq => hin q (by simp [hq])) hnd'.2 (d.pixel p)
      (Grid.flip_hasShape hd p.1 p.2)
    refine ⟨hs, fun r c => ?_, ?_, ?_⟩
    · rw [List.foldl_cons, hcell]
      show ((d.grid.flip p.1 p.2).cell r c ^^ _) = _
      rw [hflip]
      by_cases e : (r, c) = p
      · subst e; simp [hnd'.1]
      · have : ¬ (r = p.1 ∧ c = p.2) := fun h => e (Prod.ext h.1 h.2)
        simp [e, this]
    · rw [List.foldl_cons, hcol]
      show (d.collision || d.grid.cell p.1 p.2) = true ∨ (∃ q ∈ ps, (d.grid.flip p.1 p.2).cell q.1 q.2 = true) ↔ _
      have hsame : ∀ q ∈ ps, (d.grid.flip p.1 p.2).cell q.1 q.2 = d.grid.cell q.1 q.2 := by
        intro q hq
        have : ¬ (q.1 = p.1 ∧ q.2 = p.2) := fun h => hnd'.1 (Prod.ext h.1 h.2 ▸ hq)
        simp [hflip, this]
      simp only [Bool.or_eq_true, List.mem_cons, exists_eq_or_imp, or_assoc]
      constructor
      · rintro (h | h | ⟨q, hq, h⟩)
        · exact .inl h
        · exact .inr (.inl h)
        · exact .inr (.inr ⟨q, hq, hsame q hq ▸ h⟩)
      · rintro (h | h | ⟨q, hq, h⟩)
        · exact .inl h
        · exact .inr (.inl h)
        · exact .inr (.inr ⟨q, hq, (hsame q hq).symm ▸ h⟩)
    · rw [List.foldl_cons, hfl]; simp [Drawing.pixel]

/-- The cells a draw flips. -/
def drawCells (rows : List Byte) (ox oy : Byte) (s : State) : List (Nat × Nat) :=
  spritePixels s.cfg.width s.cfg.height (ox.toNat % s.cfg.width) (oy.toNat % s.cfg.height) rows

/-- Everything `FbDraw` can do (rule R94), in terms of the cells it flips. -/
theorem fbDraw_spec (rows : List Byte) (ox oy : Byte) (s : State)
    (hs : Grid.hasShape s.fb s.cfg.width s.cfg.height) :
    let d := fbDraw rows ox oy s
    Grid.hasShape d.2.fb s.cfg.width s.cfg.height ∧
    (∀ r c, d.2.fb.cell r c = (s.fb.cell r c ^^ decide ((r, c) ∈ drawCells rows ox oy s))) ∧
    (d.1 = true ↔ ∃ p ∈ drawCells rows ox oy s, s.fb.cell p.1 p.2 = true) ∧
    (d.2.changed = true ↔ s.changed = true ∨ drawCells rows ox oy s ≠ []) ∧
    d.2 = { s with fb := d.2.fb, changed := d.2.changed } := by
  have h := foldl_pixel (drawCells rows ox oy s)
    (fun p hp => by have := mem_spritePixels.mp hp; exact ⟨this.2.2.1, this.2.2.2.2.2.1⟩)
    (nodup_spritePixels _ _ _ _ _) { grid := s.fb, collision := false, flipped := false } hs
  refine ⟨h.1, h.2.1, ?_, ?_, rfl⟩
  · show (List.foldl Drawing.pixel _ (drawCells rows ox oy s)).collision = true ↔ _
    rw [h.2.2.1]; simp
  · show (s.changed || (List.foldl Drawing.pixel _ (drawCells rows ox oy s)).flipped) = true ↔ _
    rw [Bool.or_eq_true, h.2.2.2]; simp

end Sys2Proof.Machine
end

