-- ==== Sys2Proof/Laws/State.lean ====
section
/-! SUPPORT. The fields of a state after each named update: one lemma per field, so that no proof unfolds a record
update. -/

namespace Sys2Proof.Machine

/-! ## `V[r] <- b` -/

@[simp] theorem setReg_v (s : State) (r : Reg) (b : Byte) : (s.setReg r b).v = s.v.set r.val b := rfl
@[simp] theorem setReg_pc (s : State) (r : Reg) (b : Byte) : (s.setReg r b).pc = s.pc := rfl
@[simp] theorem setReg_i (s : State) (r : Reg) (b : Byte) : (s.setReg r b).i = s.i := rfl
@[simp] theorem setReg_sp (s : State) (r : Reg) (b : Byte) : (s.setReg r b).sp = s.sp := rfl
@[simp] theorem setReg_stack (s : State) (r : Reg) (b : Byte) : (s.setReg r b).stack = s.stack := rfl
@[simp] theorem setReg_mem (s : State) (r : Reg) (b : Byte) : (s.setReg r b).mem = s.mem := rfl
@[simp] theorem setReg_dt (s : State) (r : Reg) (b : Byte) : (s.setReg r b).dt = s.dt := rfl
@[simp] theorem setReg_st (s : State) (r : Reg) (b : Byte) : (s.setReg r b).st = s.st := rfl
@[simp] theorem setReg_ltt (s : State) (r : Reg) (b : Byte) : (s.setReg r b).ltt = s.ltt := rfl
@[simp] theorem setReg_keys (s : State) (r : Reg) (b : Byte) : (s.setReg r b).keys = s.keys := rfl
@[simp] theorem setReg_fb (s : State) (r : Reg) (b : Byte) : (s.setReg r b).fb = s.fb := rfl
@[simp] theorem setReg_changed (s : State) (r : Reg) (b : Byte) : (s.setReg r b).changed = s.changed := rfl
@[simp] theorem setReg_cfg (s : State) (r : Reg) (b : Byte) : (s.setReg r b).cfg = s.cfg := rfl
@[simp] theorem setReg_result (s : State) (r : Reg) (b : Byte) : (s.setReg r b).result = s.result := rfl
@[simp] theorem setReg_rand (s : State) (r : Reg) (b : Byte) : (s.setReg r b).rand = s.rand := rfl
@[simp] theorem setReg_schedule (s : State) (r : Reg) (b : Byte) : (s.setReg r b).schedule = s.schedule := rfl
@[simp] theorem setReg_stepIndex (s : State) (r : Reg) (b : Byte) : (s.setReg r b).stepIndex = s.stepIndex := rfl

/-! ## `VF <- f` -/

@[simp] theorem setFlag_v (s : State) (f : Bool) : (s.setFlag f).v = s.v.set 15 (flagByte f) := rfl
@[simp] theorem setFlag_pc (s : State) (f : Bool) : (s.setFlag f).pc = s.pc := rfl
@[simp] theorem setFlag_i (s : State) (f : Bool) : (s.setFlag f).i = s.i := rfl
@[simp] theorem setFlag_sp (s : State) (f : Bool) : (s.setFlag f).sp = s.sp := rfl
@[simp] theorem setFlag_stack (s : State) (f : Bool) : (s.setFlag f).stack = s.stack := rfl
@[simp] theorem setFlag_mem (s : State) (f : Bool) : (s.setFlag f).mem = s.mem := rfl
@[simp] theorem setFlag_dt (s : State) (f : Bool) : (s.setFlag f).dt = s.dt := rfl
@[simp] theorem setFlag_st (s : State) (f : Bool) : (s.setFlag f).st = s.st := rfl
@[simp] theorem setFlag_ltt (s : State) (f : Bool) : (s.setFlag f).ltt = s.ltt := rfl
@[simp] theorem setFlag_keys (s : State) (f : Bool) : (s.setFlag f).keys = s.keys := rfl
@[simp] theorem setFlag_fb (s : State) (f : Bool) : (s.setFlag f).fb = s.fb := rfl
@[simp] theorem setFlag_changed (s : State) (f : Bool) : (s.setFlag f).changed = s.changed := rfl
@[simp] theorem setFlag_cfg (s : State) (f : Bool) : (s.setFlag f).cfg = s.cfg := rfl
@[simp] theorem setFlag_result (s : State) (f : Bool) : (s.setFlag f).result = s.result := rfl
@[simp] theorem setFlag_rand (s : State) (f : Bool) : (s.setFlag f).rand = s.rand := rfl
@[simp] theorem setFlag_schedule (s : State) (f : Bool) : (s.setFlag f).schedule = s.schedule := rfl
@[simp] theorem setFlag_stepIndex (s : State) (f : Bool) : (s.setFlag f).stepIndex = s.stepIndex := rfl

/-! ## A write of `PC` -/

@[simp] theorem writePc_v (s : State) (t : Nat) : (s.writePc t).v = s.v := rfl
@[simp] theorem writePc_pc (s : State) (t : Nat) : (s.writePc t).pc = pcValue s.cfg t := rfl
@[simp] theorem writePc_i (s : State) (t : Nat) : (s.writePc t).i = s.i := rfl
@[simp] theorem writePc_sp (s : State) (t : Nat) : (s.writePc t).sp = s.sp := rfl
@[simp] theorem writePc_stack (s : State) (t : Nat) : (s.writePc t).stack = s.stack := rfl
@[simp] theorem writePc_mem (s : State) (t : Nat) : (s.writePc t).mem = s.mem := rfl
@[simp] theorem writePc_dt (s : State) (t : Nat) : (s.writePc t).dt = s.dt := rfl
@[simp] theorem writePc_st (s : State) (t : Nat) : (s.writePc t).st = s.st := rfl
@[simp] theorem writePc_ltt (s : State) (t : Nat) : (s.writePc t).ltt = s.ltt := rfl
@[simp] theorem writePc_keys (s : State) (t : Nat) : (s.writePc t).keys = s.keys := rfl
@[simp] theorem writePc_fb (s : State) (t : Nat) : (s.writePc t).fb = s.fb := rfl
@[simp] theorem writePc_changed (s : State) (t : Nat) : (s.writePc t).changed = s.changed := rfl
@[simp] theorem writePc_cfg (s : State) (t : Nat) : (s.writePc t).cfg = s.cfg := rfl
@[simp] theorem writePc_result (s : State) (t : Nat) : (s.writePc t).result = s.result := rfl
@[simp] theorem writePc_rand (s : State) (t : Nat) : (s.writePc t).rand = s.rand := rfl
@[simp] theorem writePc_schedule (s : State) (t : Nat) : (s.writePc t).schedule = s.schedule := rfl
@[simp] theorem writePc_stepIndex (s : State) (t : Nat) : (s.writePc t).stepIndex = s.stepIndex := rfl

/-! ## `I <- t mod 4096` -/

@[simp] theorem setI_v (s : State) (t : Nat) : (s.setI t).v = s.v := rfl
@[simp] theorem setI_pc (s : State) (t : Nat) : (s.setI t).pc = s.pc := rfl
@[simp] theorem setI_i (s : State) (t : Nat) : (s.setI t).i = BitVec.ofNat 16 (t % memSize) := rfl
@[simp] theorem setI_sp (s : State) (t : Nat) : (s.setI t).sp = s.sp := rfl
@[simp] theorem setI_stack (s : State) (t : Nat) : (s.setI t).stack = s.stack := rfl
@[simp] theorem setI_mem (s : State) (t : Nat) : (s.setI t).mem = s.mem := rfl
@[simp] theorem setI_dt (s : State) (t : Nat) : (s.setI t).dt = s.dt := rfl
@[simp] theorem setI_st (s : State) (t : Nat) : (s.setI t).st = s.st := rfl
@[simp] theorem setI_ltt (s : State) (t : Nat) : (s.setI t).ltt = s.ltt := rfl
@[simp] theorem setI_keys (s : State) (t : Nat) : (s.setI t).keys = s.keys := rfl
@[simp] theorem setI_fb (s : State) (t : Nat) : (s.setI t).fb = s.fb := rfl
@[simp] theorem setI_changed (s : State) (t : Nat) : (s.setI t).changed = s.changed := rfl
@[simp] theorem setI_cfg (s : State) (t : Nat) : (s.setI t).cfg = s.cfg := rfl
@[simp] theorem setI_result (s : State) (t : Nat) : (s.setI t).result = s.result := rfl
@[simp] theorem setI_rand (s : State) (t : Nat) : (s.setI t).rand = s.rand := rfl
@[simp] theorem setI_schedule (s : State) (t : Nat) : (s.setI t).schedule = s.schedule := rfl
@[simp] theorem setI_stepIndex (s : State) (t : Nat) : (s.setI t).stepIndex = s.stepIndex := rfl

/-! ## Bytes stored from `I` on -/

@[simp] theorem storeAtI_v (s : State) (bs : List Byte) : (s.storeAtI bs).v = s.v := rfl
@[simp] theorem storeAtI_pc (s : State) (bs : List Byte) : (s.storeAtI bs).pc = s.pc := rfl
@[simp] theorem storeAtI_i (s : State) (bs : List Byte) : (s.storeAtI bs).i = s.i := rfl
@[simp] theorem storeAtI_sp (s : State) (bs : List Byte) : (s.storeAtI bs).sp = s.sp := rfl
@[simp] theorem storeAtI_stack (s : State) (bs : List Byte) : (s.storeAtI bs).stack = s.stack := rfl
@[simp] theorem storeAtI_mem (s : State) (bs : List Byte) : (s.storeAtI bs).mem = s.mem.store s.i.toNat bs := rfl
@[simp] theorem storeAtI_dt (s : State) (bs : List Byte) : (s.storeAtI bs).dt = s.dt := rfl
@[simp] theorem storeAtI_st (s : State) (bs : List Byte) : (s.storeAtI bs).st = s.st := rfl
@[simp] theorem storeAtI_ltt (s : State) (bs : List Byte) : (s.storeAtI bs).ltt = s.ltt := rfl
@[simp] theorem storeAtI_keys (s : State) (bs : List Byte) : (s.storeAtI bs).keys = s.keys := rfl
@[simp] theorem storeAtI_fb (s : State) (bs : List Byte) : (s.storeAtI bs).fb = s.fb := rfl
@[simp] theorem storeAtI_changed (s : State) (bs : List Byte) : (s.storeAtI bs).changed = s.changed := rfl
@[simp] theorem storeAtI_cfg (s : State) (bs : List Byte) : (s.storeAtI bs).cfg = s.cfg := rfl
@[simp] theorem storeAtI_result (s : State) (bs : List Byte) : (s.storeAtI bs).result = s.result := rfl
@[simp] theorem storeAtI_rand (s : State) (bs : List Byte) : (s.storeAtI bs).rand = s.rand := rfl
@[simp] theorem storeAtI_schedule (s : State) (bs : List Byte) : (s.storeAtI bs).schedule = s.schedule := rfl
@[simp] theorem storeAtI_stepIndex (s : State) (bs : List Byte) : (s.storeAtI bs).stepIndex = s.stepIndex := rfl

/-! ## `I` after a block transfer -/

@[simp] theorem indexAfterBlock_v (s : State) : (s.indexAfterBlock).v = s.v := rfl
@[simp] theorem indexAfterBlock_pc (s : State) : (s.indexAfterBlock).pc = s.pc := rfl
@[simp] theorem indexAfterBlock_i (s : State) : (s.indexAfterBlock).i = if s.cfg.dumpLoadIncrementsIndex then BitVec.ofNat 16 ((s.i.toNat + 16) % memSize) else s.i := rfl
@[simp] theorem indexAfterBlock_sp (s : State) : (s.indexAfterBlock).sp = s.sp := rfl
@[simp] theorem indexAfterBlock_stack (s : State) : (s.indexAfterBlock).stack = s.stack := rfl
@[simp] theorem indexAfterBlock_mem (s : State) : (s.indexAfterBlock).mem = s.mem := rfl
@[simp] theorem indexAfterBlock_dt (s : State) : (s.indexAfterBlock).dt = s.dt := rfl
@[simp] theorem indexAfterBlock_st (s : State) : (s.indexAfterBlock).st = s.st := rfl
@[simp] theorem indexAfterBlock_ltt (s : State) : (s.indexAfterBlock).ltt = s.ltt := rfl
@[simp] theorem indexAfterBlock_keys (s : State) : (s.indexAfterBlock).keys = s.keys := rfl
@[simp] theorem indexAfterBlock_fb (s : State) : (s.indexAfterBlock).fb = s.fb := rfl
@[simp] theorem indexAfterBlock_changed (s : State) : (s.indexAfterBlock).changed = s.changed := rfl
@[simp] theorem indexAfterBlock_cfg (s : State) : (s.indexAfterBlock).cfg = s.cfg := rfl
@[simp] theorem indexAfterBlock_result (s : State) : (s.indexAfterBlock).result = s.result := rfl
@[simp] theorem indexAfterBlock_rand (s : State) : (s.indexAfterBlock).rand = s.rand := rfl
@[simp] theorem indexAfterBlock_schedule (s : State) : (s.indexAfterBlock).schedule = s.schedule := rfl
@[simp] theorem indexAfterBlock_stepIndex (s : State) : (s.indexAfterBlock).stepIndex = s.stepIndex := rfl

/-! ## `raise E` -/

@[simp] theorem raise_v (s : State) (e : StepError) : (s.raise e).v = s.v := rfl
@[simp] theorem raise_pc (s : State) (e : StepError) : (s.raise e).pc = s.pc := rfl
@[simp] theorem raise_i (s : State) (e : StepError) : (s.raise e).i = s.i := rfl
@[simp] theorem raise_sp (s : State) (e : StepError) : (s.raise e).sp = s.sp := rfl
@[simp] theorem raise_stack (s : State) (e : StepError) : (s.raise e).stack = s.stack := rfl
@[simp] theorem raise_mem (s : State) (e : StepError) : (s.raise e).mem = s.mem := rfl
@[simp] theorem raise_dt (s : State) (e : StepError) : (s.raise e).dt = s.dt := rfl
@[simp] theorem raise_st (s : State) (e : StepError) : (s.raise e).st = s.st := rfl
@[simp] theorem raise_ltt (s : State) (e : StepError) : (s.raise e).ltt = s.ltt := rfl
@[simp] theorem raise_keys (s : State) (e : StepError) : (s.raise e).keys = s.keys := rfl
@[simp] theorem raise_fb (s : State) (e : StepError) : (s.raise e).fb = s.fb := rfl
@[simp] theorem raise_changed (s : State) (e : StepError) : (s.raise e).changed = s.changed := rfl
@[simp] theorem raise_cfg (s : State) (e : StepError) : (s.raise e).cfg = s.cfg := rfl
@[simp] theorem raise_result (s : State) (e : StepError) : (s.raise e).result = .err e := rfl
@[simp] theorem raise_rand (s : State) (e : StepError) : (s.raise e).rand = s.rand := rfl
@[simp] theorem raise_schedule (s : State) (e : StepError) : (s.raise e).schedule = s.schedule := rfl
@[simp] theorem raise_stepIndex (s : State) (e : StepError) : (s.raise e).stepIndex = s.stepIndex := rfl

/-! ## The fetch advance of `PC` -/

@[simp] theorem advancePc_v (s : State) : (s.advancePc).v = s.v := rfl
@[simp] theorem advancePc_pc (s : State) : (s.advancePc).pc = pcValue s.cfg (s.pc.toNat + 2) := rfl
@[simp] theorem advancePc_i (s : State) : (s.advancePc).i = s.i := rfl
@[simp] theorem advancePc_sp (s : State) : (s.advancePc).sp = s.sp := rfl
@[simp] theorem advancePc_stack (s : State) : (s.advancePc).stack = s.stack := rfl
@[simp] theorem advancePc_mem (s : State) : (s.advancePc).mem = s.mem := rfl
@[simp] theorem advancePc_dt (s : State) : (s.advancePc).dt = s.dt := rfl
@[simp] theorem advancePc_st (s : State) : (s.advancePc).st = s.st := rfl
@[simp] theorem advancePc_ltt (s : State) : (s.advancePc).ltt = s.ltt := rfl
@[simp] theorem advancePc_keys (s : State) : (s.advancePc).keys = s.keys := rfl
@[simp] theorem advancePc_fb (s : State) : (s.advancePc).fb = s.fb := rfl
@[simp] theorem advancePc_changed (s : State) : (s.advancePc).changed = s.changed := rfl
@[simp] theorem advancePc_cfg (s : State) : (s.advancePc).cfg = s.cfg := rfl
@[simp] theorem advancePc_result (s : State) : (s.advancePc).result = s.result := rfl
@[simp] theorem advancePc_rand (s : State) : (s.advancePc).rand = s.rand := rfl
@[simp] theorem advancePc_schedule (s : State) : (s.advancePc).schedule = s.schedule := rfl
@[simp] theorem advancePc_stepIndex (s : State) : (s.advancePc).stepIndex = s.stepIndex := rfl

/-! ## Clearing the framebuffer -/

@[simp] theorem fbClear_v (s : State) : (fbClear s).v = s.v := rfl
@[simp] theorem fbClear_pc (s : State) : (fbClear s).pc = s.pc := rfl
@[simp] theorem fbClear_i (s : State) : (fbClear s).i = s.i := rfl
@[simp] theorem fbClear_sp (s : State) : (fbClear s).sp = s.sp := rfl
@[simp] theorem fbClear_stack (s : State) : (fbClear s).stack = s.stack := rfl
@[simp] theorem fbClear_mem (s : State) : (fbClear s).mem = s.mem := rfl
@[simp] theorem fbClear_dt (s : State) : (fbClear s).dt = s.dt := rfl
@[simp] theorem fbClear_st (s : State) : (fbClear s).st = s.st := rfl
@[simp] theorem fbClear_ltt (s : State) : (fbClear s).ltt = s.ltt := rfl
@[simp] theorem fbClear_keys (s : State) : (fbClear s).keys = s.keys := rfl
@[simp] theorem fbClear_fb (s : State) : (fbClear s).fb = Grid.blank s.cfg.width s.cfg.height := rfl
@[simp] theorem fbClear_changed (s : State) : (fbClear s).changed = true := rfl
@[simp] theorem fbClear_cfg (s : State) : (fbClear s).cfg = s.cfg := rfl
@[simp] theorem fbClear_result (s : State) : (fbClear s).result = s.result := rfl
@[simp] theorem fbClear_rand (s : State) : (fbClear s).rand = s.rand := rfl
@[simp] theorem fbClear_schedule (s : State) : (fbClear s).schedule = s.schedule := rfl
@[simp] theorem fbClear_stepIndex (s : State) : (fbClear s).stepIndex = s.stepIndex := rfl

/-! ## The timer phase -/

@[simp] theorem timerPhase_v (s : State) (now : Nat) : (timerPhase now s).v = s.v := rfl
@[simp] theorem timerPhase_pc (s : State) (now : Nat) : (timerPhase now s).pc = s.pc := rfl
@[simp] theorem timerPhase_i (s : State) (now : Nat) : (timerPhase now s).i = s.i := rfl
@[simp] theorem timerPhase_sp (s : State) (now : Nat) : (timerPhase now s).sp = s.sp := rfl
@[simp] theorem timerPhase_stack (s : State) (now : Nat) : (timerPhase now s).stack = s.stack := rfl
@[simp] theorem timerPhase_mem (s : State) (now : Nat) : (timerPhase now s).mem = s.mem := rfl
@[simp] theorem timerPhase_dt (s : State) (now : Nat) : (timerPhase now s).dt = if s.tickDue now then countDown s.dt else s.dt := rfl
@[simp] theorem timerPhase_st (s : State) (now : Nat) : (timerPhase now s).st = if s.tickDue now then countDown s.st else s.st := rfl
@[simp] theorem timerPhase_ltt (s : State) (now : Nat) : (timerPhase now s).ltt = if s.tickDue now then s.lttAfterTick now else s.ltt := rfl
@[simp] theorem timerPhase_keys (s : State) (now : Nat) : (timerPhase now s).keys = s.keys := rfl
@[simp] theorem timerPhase_fb (s : State) (now : Nat) : (timerPhase now s).fb = s.fb := rfl
@[simp] theorem timerPhase_changed (s : State) (now : Nat) : (timerPhase now s).changed = s.changed := rfl
@[simp] theorem timerPhase_cfg (s : State) (now : Nat) : (timerPhase now s).cfg = s.cfg := rfl
@[simp] theorem timerPhase_result (s : State) (now : Nat) : (timerPhase now s).result = s.result := rfl
@[simp] theorem timerPhase_rand (s : State) (now : Nat) : (timerPhase now s).rand = s.rand := rfl
@[simp] theorem timerPhase_schedule (s : State) (now : Nat) : (timerPhase now s).schedule = s.schedule := rfl
@[simp] theorem timerPhase_stepIndex (s : State) (now : Nat) : (timerPhase now s).stepIndex = s.stepIndex := rfl

/-! ## The host's calls -/

@[simp] theorem hostCalls_v (s : State) (cs : List HostCall) : (hostCalls cs s).v = s.v := rfl
@[simp] theorem hostCalls_pc (s : State) (cs : List HostCall) : (hostCalls cs s).pc = s.pc := rfl
@[simp] theorem hostCalls_i (s : State) (cs : List HostCall) : (hostCalls cs s).i = s.i := rfl
@[simp] theorem hostCalls_sp (s : State) (cs : List HostCall) : (hostCalls cs s).sp = s.sp := rfl
@[simp] theorem hostCalls_stack (s : State) (cs : List HostCall) : (hostCalls cs s).stack = s.stack := rfl
@[simp] theorem hostCalls_mem (s : State) (cs : List HostCall) : (hostCalls cs s).mem = s.mem := rfl
@[simp] theorem hostCalls_dt (s : State) (cs : List HostCall) : (hostCalls cs s).dt = s.dt := rfl
@[simp] theorem hostCalls_st (s : State) (cs : List HostCall) : (hostCalls cs s).st = s.st := rfl
@[simp] theorem hostCalls_ltt (s : State) (cs : List HostCall) : (hostCalls cs s).ltt = s.ltt := rfl
@[simp] theorem hostCalls_keys (s : State) (cs : List HostCall) : (hostCalls cs s).keys = cs.foldl keysAfter s.keys := rfl
@[simp] theorem hostCalls_fb (s : State) (cs : List HostCall) : (hostCalls cs s).fb = s.fb := rfl
@[simp] theorem hostCalls_changed (s : State) (cs : List HostCall) : (hostCalls cs s).changed = cs.foldl changedAfter s.changed := rfl
@[simp] theorem hostCalls_cfg (s : State) (cs : List HostCall) : (hostCalls cs s).cfg = s.cfg := rfl
@[simp] theorem hostCalls_result (s : State) (cs : List HostCall) : (hostCalls cs s).result = s.result := rfl
@[simp] theorem hostCalls_rand (s : State) (cs : List HostCall) : (hostCalls cs s).rand = s.rand := rfl
@[simp] theorem hostCalls_schedule (s : State) (cs : List HostCall) : (hostCalls cs s).schedule = s.schedule := rfl
@[simp] theorem hostCalls_stepIndex (s : State) (cs : List HostCall) : (hostCalls cs s).stepIndex = s.stepIndex := rfl

/-! ## Registers -/

@[simp] theorem reg_setReg_self (s : State) (r : Reg) (b : Byte) : (s.setReg r b).reg r = b := by
  simp [State.reg, State.setReg]

theorem reg_setReg_of_ne (s : State) {r r' : Reg} (b : Byte) (h : r' ≠ r) : (s.setReg r b).reg r' = s.reg r' := by
  have h' : r.val ≠ r'.val := fun e => h (Fin.ext e.symm)
  simp [State.reg, State.setReg, h']

theorem setFlag_eq (s : State) (f : Bool) : s.setFlag f = s.setReg Reg.vf (flagByte f) := rfl

@[simp] theorem reg_setFlag_vf (s : State) (f : Bool) : (s.setFlag f).reg Reg.vf = flagByte f := by
  simp [setFlag_eq]

theorem reg_setFlag_of_ne (s : State) {r : Reg} (f : Bool) (h : r ≠ Reg.vf) : (s.setFlag f).reg r = s.reg r :=
  reg_setReg_of_ne s _ h

theorem setRegFlag_eq (s : State) (x : Reg) (b : Byte) (f : Bool) :
    s.setRegFlag x b f = (s.setReg x b).setFlag f := rfl

/-- A state whose registers alone were written, as one record update. -/
theorem setReg_frame (s : State) (r : Reg) (b : Byte) : s.setReg r b = { s with v := (s.setReg r b).v } := rfl

theorem setRegFlag_frame (s : State) (x : Reg) (b : Byte) (f : Bool) :
    s.setRegFlag x b f = { s with v := (s.setRegFlag x b f).v } := rfl

/-! ## Keys -/

@[simp] theorem key_clear_self (s : State) (k : Key) (b : Bool) :
    ({ s with keys := s.keys.set k.val b } : State).key k = b := by
  simp [State.key]

theorem key_clear_of_ne (s : State) {k j : Key} (b : Bool) (h : j ≠ k) :
    ({ s with keys := s.keys.set k.val b } : State).key j = s.key j := by
  have h' : k.val ≠ j.val := fun e => h (Fin.ext e.symm)
  simp [State.key, h']

end Sys2Proof.Machine
end

