-- ==== Sys2Proof/Laws/Ops.lean ====
section
/-! SUPPORT. What each shared operation over `PC`, the stack and the step's start can do. -/

namespace Sys2Proof.Machine

/-! ## `PC` and fetch -/

theorem pcValue_report {cfg : Configuration} (h : cfg.pcOverrunPolicy = .report) (t : Nat) :
    pcValue cfg t = BitVec.ofNat 16 t := by simp [pcValue, h]

theorem pcValue_wrap {cfg : Configuration} (h : cfg.pcOverrunPolicy = .wrap) (t : Nat) :
    pcValue cfg t = BitVec.ofNat 16 (t % memSize) := by simp [pcValue, h]

theorem pcValue_toNat_wrap {cfg : Configuration} (h : cfg.pcOverrunPolicy = .wrap) (t : Nat) :
    (pcValue cfg t).toNat = t % 4096 := by
  simp only [pcValue_wrap h, BitVec.toNat_ofNat, memSize]; omega

theorem pcValue_toNat_report {cfg : Configuration} (h : cfg.pcOverrunPolicy = .report) {t : Nat} (ht : t < 65536) :
    (pcValue cfg t).toNat = t := by
  simp only [pcValue_report h, BitVec.toNat_ofNat]; omega

theorem fetchFails_iff (s : State) :
    s.fetchFails = true ↔ s.cfg.pcOverrunPolicy = .report ∧ 0xFFE < s.pc.toNat := by
  simp [State.fetchFails]

theorem fetchFails_false_iff (s : State) :
    s.fetchFails = false ↔ (s.cfg.pcOverrunPolicy = .report → s.pc.toNat ≤ 0xFFE) := by
  rw [← Bool.not_eq_true, fetchFails_iff, not_and, not_lt]

/-- The fetch-advance either fails or gives the word at `PC` and the advanced `PC`. -/
theorem fetchAdvance_cases (s : State) :
    (s.fetchFails = true ∧ fetchAdvance s = none) ∨
    (s.fetchFails = false ∧ fetchAdvance s = some (s.wordAtPc, s.advancePc)) := by
  unfold fetchAdvance
  cases s.fetchFails <;> simp

/-- A skip either fails with `PC` in place or advances `PC`. -/
theorem skip_cases (s : State) :
    (s.fetchFails = true ∧ skip s = s.raise .addressOutOfRange) ∨
    (s.fetchFails = false ∧ skip s = s.advancePc) := by
  rcases fetchAdvance_cases s with ⟨h, e⟩ | ⟨h, e⟩
  · exact .inl ⟨h, by simp [skip, e]⟩
  · exact .inr ⟨h, by simp [skip, e]⟩

theorem skipIf_false (s : State) : skipIf false s = s := rfl

theorem skipIf_true (s : State) : skipIf true s = skip s := rfl

/-! ## Call stack -/

theorem push_full (v : Word) (s : State) (h : s.sp.val = 16) : push v s = .error .stackOverflow := by
  simp [push, h]

theorem push_room (v : Word) (s : State) (h : s.sp.val < 16) :
    push v s = .ok { s with stack := s.stack.set s.sp.val v h, sp := ⟨s.sp.val + 1, Nat.succ_lt_succ h⟩ } := by
  simp [push, stackDepth, h]

theorem pop_empty (s : State) (h : s.sp.val = 0) : pop s = .error .stackUnderflow := by
  simp [pop, h]

theorem pop_entry (s : State) (k : Fin 16) (h : s.sp.val = k.val + 1) :
    pop s = .ok (s.stack[k], { s with sp := k.castSucc }) := by
  have hk : (⟨s.sp.val - 1, by have := s.sp.isLt; omega⟩ : Fin 16) = k := Fin.ext (by simp [h])
  simp only [pop, h, Nat.add_eq_zero_iff, one_ne_zero, and_false, dite_false]
  congr 2

/-! ## Timers -/

theorem countDown_toNat (t : Byte) : (countDown t).toNat = t.toNat - 1 := by
  unfold countDown
  split
  · next h => simp [h]
  · next h => have : t.toNat ≠ 0 := fun e => h (BitVec.eq_of_toNat_eq (by simpa using e)); bv_omega

theorem tickDue_iff (s : State) (now : Nat) :
    s.tickDue now = true ↔ s.ltt ≤ now ∧ s.cfg.tickPeriod ≤ now - s.ltt := by
  simp [State.tickDue]

/-! ## What precedes the fetch -/

@[simp] theorem beginStep_v (s : State) : (beginStep s).v = s.v := rfl
@[simp] theorem beginStep_pc (s : State) : (beginStep s).pc = s.pc := rfl
@[simp] theorem beginStep_i (s : State) : (beginStep s).i = s.i := rfl
@[simp] theorem beginStep_sp (s : State) : (beginStep s).sp = s.sp := rfl
@[simp] theorem beginStep_stack (s : State) : (beginStep s).stack = s.stack := rfl
@[simp] theorem beginStep_mem (s : State) : (beginStep s).mem = s.mem := rfl
@[simp] theorem beginStep_fb (s : State) : (beginStep s).fb = s.fb := rfl
@[simp] theorem beginStep_cfg (s : State) : (beginStep s).cfg = s.cfg := rfl
@[simp] theorem beginStep_result (s : State) : (beginStep s).result = .ok := rfl
@[simp] theorem beginStep_rand (s : State) : (beginStep s).rand = s.nextInputs.rand := rfl
@[simp] theorem beginStep_schedule (s : State) : (beginStep s).schedule = s.schedule.tail := rfl
@[simp] theorem beginStep_stepIndex (s : State) : (beginStep s).stepIndex = s.stepIndex + 1 := rfl
@[simp] theorem beginStep_fetchFails (s : State) : (beginStep s).fetchFails = s.fetchFails := rfl
@[simp] theorem beginStep_wordAtPc (s : State) : (beginStep s).wordAtPc = s.wordAtPc := rfl

/-- A step either fails in its fetch or executes the word at `PC` with `PC` advanced. -/
theorem step_cases (s : State) :
    (s.fetchFails = true ∧ step s = .next ((beginStep s).raise .addressOutOfRange)) ∨
    (s.fetchFails = false ∧ step s = exec (decode s.wordAtPc) (beginStep s).advancePc) := by
  rcases fetchAdvance_cases (beginStep s) with ⟨h, e⟩ | ⟨h, e⟩
  · exact .inl ⟨h, by simp [step, e]⟩
  · exact .inr ⟨h, by simp [step, e]⟩

end Sys2Proof.Machine
end

