-- ==== Sys2Proof/Laws/Frames.lean ====
section
/-! SUPPORT. What the shared operations leave unchanged, in the terms of the statements (Safety.lean). -/

namespace Sys2Proof.Machine

/-- States with the same memory read the same bytes. -/
theorem sameBytes_of_mem_eq {s t : State} (h : t.mem = s.mem) : SameBytes s t := fun a => by
  simp [State.byteAt, h]

theorem SameBytes.refl (s : State) : SameBytes s s := fun _ => rfl

theorem SameBytes.trans {s t u : State} (h : SameBytes s t) (h' : SameBytes t u) : SameBytes s u :=
  fun a => (h' a).trans (h a)

/-- A skip, taken, failing or not taken, changes `PC` and the result at most. -/
theorem skipIf_frame (c : Bool) (s : State) :
    skipIf c s = { s with pc := (skipIf c s).pc, result := (skipIf c s).result } := by
  cases c
  · rfl
  · rcases skip_cases s with ⟨_, e⟩ | ⟨_, e⟩
    · rw [skipIf_true, e]; rfl
    · rw [skipIf_true, e]; rfl

/-- An instruction that answers `skipIf` skips when the condition holds. -/
theorem skipsWhen_of_exec {i : Instr} {s : State} {c : Bool} (h : exec i s = .next (skipIf c s)) :
    SkipsWhen i s (c = true) := by
  refine ⟨fun hc => ?_, fun hc hp hl => ?_, fun hc hp => ?_, fun hc hp hl => ?_⟩
  · rw [h, Bool.not_eq_true c |>.mp hc, skipIf_false]
  · have hf : s.fetchFails = false := (fetchFails_false_iff s).mpr fun _ => hl
    rcases skip_cases s with ⟨hf', _⟩ | ⟨_, e⟩
    · simp [hf] at hf'
    · refine ⟨s.advancePc, by rw [h, hc, skipIf_true, e], ?_, rfl, sameBytes_of_mem_eq rfl⟩
      rw [advancePc_pc, pcValue_toNat_report hp (by omega)]
  · have hf : s.fetchFails = false := (fetchFails_false_iff s).mpr fun h' => by simp [hp] at h'
    rcases skip_cases s with ⟨hf', _⟩ | ⟨_, e⟩
    · simp [hf] at hf'
    · refine ⟨s.advancePc, by rw [h, hc, skipIf_true, e], ?_, rfl, sameBytes_of_mem_eq rfl⟩
      rw [advancePc_pc, pcValue_toNat_wrap hp]
  · have hf : s.fetchFails = true := (fetchFails_iff s).mpr ⟨hp, hl⟩
    rcases skip_cases s with ⟨_, e⟩ | ⟨hf', _⟩
    · rw [h, hc, skipIf_true, e]; rfl
    · simp [hf] at hf'

end Sys2Proof.Machine
end

