-- ==== Sys2Proof/Laws/Memory.lean ====
section
/-! SUPPORT. The laws of memory: a byte written is read back, every other byte stays, the canonical form is kept. -/

namespace Sys2Proof.Machine

/-! ## One byte -/

theorem Memory.read_others_self (m : Memory) (a : Nat) :
    Memory.read (m.filter fun c => c.1 != a) a = Memory.unlisted a := by
  induction m with
  | nil => rfl
  | cons c m ih =>
    by_cases h : c.1 = a
    · simpa [h] using ih
    · simpa [h, Memory.read] using ih

theorem Memory.read_others_of_ne (m : Memory) {a a' : Nat} (h : a' ≠ a) :
    Memory.read (m.filter fun c => c.1 != a) a' = Memory.read m a' := by
  induction m with
  | nil => rfl
  | cons c m ih =>
    by_cases hc : c.1 = a
    · have : c.1 ≠ a' := fun e => h (e ▸ hc)
      have hm : Memory.read (c :: m) a' = Memory.read m a' := by simp [Memory.read, this]
      rw [hm, ← ih]; simp [hc]
    · by_cases hc' : c.1 = a'
      · simp [hc', h, Memory.read]
      · simpa [hc, hc', Memory.read] using ih

theorem Memory.read_insert_self (m : Memory) (a : Nat) (b : Byte) (h : ∀ c ∈ m, c.1 ≠ a) :
    Memory.read (Memory.insert m a b) a = b := by
  induction m with
  | nil => simp [Memory.insert, Memory.read]
  | cons c m ih =>
    have hc : c.1 ≠ a := h c (by simp)
    by_cases hlt : a < c.1
    · simp [Memory.insert, hlt, Memory.read]
    · simpa [Memory.insert, hlt, Memory.read, hc] using ih fun d hd => h d (by simp [hd])

theorem Memory.read_insert_of_ne (m : Memory) {a a' : Nat} (b : Byte) (h : a' ≠ a) :
    Memory.read (Memory.insert m a b) a' = Memory.read m a' := by
  induction m with
  | nil => simp [Memory.insert, Memory.read, h.symm]
  | cons c m ih =>
    by_cases hlt : a < c.1
    · simp [Memory.insert, hlt, Memory.read, h.symm]
    · simp only [Memory.insert, if_neg hlt, Memory.read, ih]

@[simp] theorem Memory.read_write_self (m : Memory) (a : Nat) (b : Byte) :
    Memory.read (Memory.write m a b) a = b := by
  by_cases hb : b = Memory.unlisted a
  · simp only [Memory.write, if_pos hb, Memory.read_others_self]; exact hb.symm
  · simp only [Memory.write, if_neg hb]
    exact Memory.read_insert_self _ _ _ fun c hc => by simpa using (List.mem_filter.mp hc).2

theorem Memory.read_write_of_ne (m : Memory) {a a' : Nat} (b : Byte) (h : a' ≠ a) :
    Memory.read (Memory.write m a b) a' = Memory.read m a' := by
  by_cases hb : b = Memory.unlisted a
  · simp only [Memory.write, if_pos hb, Memory.read_others_of_ne m h]
  · simp only [Memory.write, if_neg hb, Memory.read_insert_of_ne _ b h, Memory.read_others_of_ne m h]

/-! ## The canonical form -/

theorem Memory.mem_insert {m : Memory} {a : Nat} {b : Byte} {c : Host.Cell} :
    c ∈ Memory.insert m a b ↔ c = (a, b) ∨ c ∈ m := by
  induction m with
  | nil => simp [Memory.insert]
  | cons d m ih =>
    by_cases hlt : a < d.1
    · simp [Memory.insert, hlt]
    · simp only [Memory.insert, if_neg hlt, List.mem_cons, ih]; tauto

theorem Memory.insert_rising (m : Memory) (a : Nat) (b : Byte) (h : m.Pairwise fun c d => c.1 < d.1)
    (ha : ∀ c ∈ m, c.1 ≠ a) : (Memory.insert m a b).Pairwise fun c d => c.1 < d.1 := by
  induction m with
  | nil => simp [Memory.insert]
  | cons c m ih =>
    have hc : c.1 ≠ a := ha c (by simp)
    rw [List.pairwise_cons] at h
    by_cases hlt : a < c.1
    · simp only [Memory.insert, if_pos hlt, List.pairwise_cons, List.mem_cons]
      refine ⟨?_, h.1, h.2⟩
      rintro d (rfl | hd)
      · exact hlt
      · exact lt_trans hlt (h.1 d hd)
    · simp only [Memory.insert, if_neg hlt, List.pairwise_cons]
      refine ⟨fun d hd => ?_, ih h.2 fun d hd => ha d (by simp [hd])⟩
      rcases Memory.mem_insert.mp hd with rfl | hd
      · show c.1 < a; omega
      · exact h.1 d hd

theorem Memory.write_wf {m : Memory} (hm : Memory.wf m) {a : Nat} (ha : a < memSize) (b : Byte) :
    Memory.wf (Memory.write m a b) := by
  have hwf : Memory.wf (m.filter fun c => c.1 != a) :=
    ⟨hm.1.filter _, fun c hc => hm.2 c (List.mem_filter.mp hc).1⟩
  by_cases hb : b = Memory.unlisted a
  · simpa only [Memory.write, if_pos hb] using hwf
  · simp only [Memory.write, if_neg hb]
    refine ⟨Memory.insert_rising _ a b hwf.1 fun c hc => by simpa using (List.mem_filter.mp hc).2, fun c hc => ?_⟩
    rcases Memory.mem_insert.mp hc with rfl | hc
    · exact ⟨ha, hb⟩
    · exact hwf.2 c hc

theorem Memory.store_wf {m : Memory} (hm : Memory.wf m) (a : Nat) (bs : List Byte) :
    Memory.wf (Memory.store m a bs) := by
  induction bs generalizing m a with
  | nil => exact hm
  | cons b bs ih => exact ih (Memory.write_wf hm (Nat.mod_lt _ (by decide)) b) _

/-! ## Consecutive bytes -/

/-- A store leaves every byte outside the stored addresses alone. -/
theorem Memory.read_store_of_outside (m : Memory) (a a' : Nat) (bs : List Byte)
    (h : ∀ k, k < bs.length → a' ≠ (a + k) % memSize) : Memory.read (Memory.store m a bs) a' = Memory.read m a' := by
  induction bs generalizing m a with
  | nil => rfl
  | cons b bs ih =>
    have h0 : a' ≠ a % memSize := by simpa using h 0 (by simp)
    rw [Memory.store, ih, Memory.read_write_of_ne m b h0]
    intro k hk
    have := h (k + 1) (by simpa using hk)
    rwa [show a + (k + 1) = a + 1 + k by omega] at this

/-- The bytes of a store that does not overtake itself are read back. -/
theorem Memory.read_store_stored (m : Memory) (a : Nat) (bs : List Byte) (hlen : bs.length ≤ memSize)
    (k : Nat) (hk : k < bs.length) : Memory.read (Memory.store m a bs) ((a + k) % memSize) = bs[k] := by
  induction bs generalizing m a k with
  | nil => simp at hk
  | cons b bs ih =>
    have hlen' : bs.length + 1 ≤ 4096 := by simpa [memSize] using hlen
    cases k with
    | zero =>
      rw [Memory.store, Memory.read_store_of_outside]
      · simp
      · intro j hj
        simp only [memSize]; omega
    | succ k =>
      rw [Memory.store, show a + (k + 1) = a + 1 + k by omega,
        ih _ (a + 1) (by simp only [memSize]; omega) k (by simpa using hk)]
      rfl

/-! ## `MemRead` and `MemWrite` from `I` on -/

theorem byteAt_storeAtI_stored (s : State) (bs : List Byte) (hlen : bs.length ≤ memSize) (k : Nat)
    (hk : k < bs.length) : (s.storeAtI bs).byteAt (s.ea k) = bs[k] := by
  have h : s.ea k % memSize = (s.i.toNat + k) % memSize := by simp [State.ea]
  rw [State.byteAt, h]
  exact Memory.read_store_stored s.mem s.i.toNat bs hlen k hk

theorem byteAt_storeAtI_outside (s : State) (bs : List Byte) (a : Nat)
    (h : ∀ k, k < bs.length → a % memSize ≠ s.ea k) : (s.storeAtI bs).byteAt a = s.byteAt a :=
  Memory.read_store_of_outside s.mem s.i.toNat (a % memSize) bs h

end Sys2Proof.Machine
end

