-- ==== Sys2Proof/Laws/PerInstr.lean ====
section
/-! SUPPORT. A fact about every instruction as syntax, one lemma per constructor: its word has the bits that its row of
the opcode map fixes (30_encoding.md rule R53); the no-operation's word has those of no row (rule R54). -/

namespace Sys2Proof.Laws.FixedBits

/-- The row of rule R53 an instruction stands for; the no-operation has none. -/
def row : Instr → Option OpcodeRow
  | .cls => some (0xFFFF#16, 0x00E0#16)
  | .ret => some (0xFFFF#16, 0x00EE#16)
  | .jp _ => some (0xF000#16, 0x1000#16)
  | .call _ => some (0xF000#16, 0x2000#16)
  | .seImm _ _ => some (0xF000#16, 0x3000#16)
  | .sneImm _ _ => some (0xF000#16, 0x4000#16)
  | .seReg _ _ => some (0xF00F#16, 0x5000#16)
  | .ldImm _ _ => some (0xF000#16, 0x6000#16)
  | .addImm _ _ => some (0xF000#16, 0x7000#16)
  | .ldReg _ _ => some (0xF00F#16, 0x8000#16)
  | .orReg _ _ => some (0xF00F#16, 0x8001#16)
  | .andReg _ _ => some (0xF00F#16, 0x8002#16)
  | .xorReg _ _ => some (0xF00F#16, 0x8003#16)
  | .addReg _ _ => some (0xF00F#16, 0x8004#16)
  | .subReg _ _ => some (0xF00F#16, 0x8005#16)
  | .shr _ _ => some (0xF00F#16, 0x8006#16)
  | .subnReg _ _ => some (0xF00F#16, 0x8007#16)
  | .shl _ _ => some (0xF00F#16, 0x800E#16)
  | .sneReg _ _ => some (0xF00F#16, 0x9000#16)
  | .ldI _ => some (0xF000#16, 0xA000#16)
  | .jpV0 _ => some (0xF000#16, 0xB000#16)
  | .rnd _ _ => some (0xF000#16, 0xC000#16)
  | .drw _ _ _ => some (0xF000#16, 0xD000#16)
  | .skp _ => some (0xF0FF#16, 0xE09E#16)
  | .sknp _ => some (0xF0FF#16, 0xE0A1#16)
  | .ldVxDt _ => some (0xF0FF#16, 0xF007#16)
  | .ldVxK _ => some (0xF0FF#16, 0xF00A#16)
  | .ldDtVx _ => some (0xF0FF#16, 0xF015#16)
  | .ldStVx _ => some (0xF0FF#16, 0xF018#16)
  | .addI _ => some (0xF0FF#16, 0xF01E#16)
  | .ldF _ => some (0xF0FF#16, 0xF029#16)
  | .ldB _ => some (0xF0FF#16, 0xF033#16)
  | .dump _ => some (0xF0FF#16, 0xF055#16)
  | .load _ => some (0xF0FF#16, 0xF065#16)
  | .nop _ => none

/-- A well-formed instruction's word is selected by its row, which stands in the opcode map; a well-formed
no-operation's word by no row of the map. -/
def Statement (i : Instr) : Prop :=
  i.WellFormed →
    match row i with
    | some r => r ∈ opcodeMap ∧ r.selects (encode i) = true
    | none => ∀ r ∈ opcodeMap, r.selects (encode i) = false

theorem formatA_selected (op : BitVec 4) (nnn : Addr) :
    OpcodeRow.selects (0xF000#16, op ++ 0#12) (formatA op nnn) = true := by
  simp only [OpcodeRow.selects, formatA, beq_iff_eq, show (0xF000#16 : Word) = 0xF#4 ++ 0x000#12 from rfl]
  rw [BitVec.and_append]
  congr 1
  · exact BitVec.and_allOnes
  · exact BitVec.and_zero

theorem formatXB_selected (op : BitVec 4) (x : Reg) (nn : Byte) :
    OpcodeRow.selects (0xF000#16, op ++ 0#12) (formatXB op x nn) = true := by
  simp only [OpcodeRow.selects, formatXB, beq_iff_eq, show (0xF000#16 : Word) = 0xF#4 ++ 0x0#4 ++ 0x00#8 from rfl,
    show (op ++ 0#12 : Word) = op ++ 0x0#4 ++ 0x00#8 from by revert op; decide]
  rw [BitVec.and_append, BitVec.and_append]
  congr 2
  · exact BitVec.and_allOnes
  · exact BitVec.and_zero
  · exact BitVec.and_zero

theorem formatX_selected (op : BitVec 4) (x : Reg) (sub : Byte) :
    OpcodeRow.selects (0xF0FF#16, op ++ 0x0#4 ++ sub) (formatXB op x sub) = true := by
  simp only [OpcodeRow.selects, formatXB, beq_iff_eq, show (0xF0FF#16 : Word) = 0xF#4 ++ 0x0#4 ++ 0xFF#8 from rfl]
  rw [BitVec.and_append, BitVec.and_append]
  congr 2
  · exact BitVec.and_allOnes
  · exact BitVec.and_zero
  · exact BitVec.and_allOnes

theorem formatXY_selected (op : BitVec 4) (x y : Reg) (sub : BitVec 4) :
    OpcodeRow.selects (0xF00F#16, op ++ 0x0#4 ++ 0x0#4 ++ sub) (formatXY op x y sub) = true := by
  simp only [OpcodeRow.selects, formatXY, beq_iff_eq,
    show (0xF00F#16 : Word) = 0xF#4 ++ 0x0#4 ++ 0x0#4 ++ 0xF#4 from rfl]
  rw [BitVec.and_append, BitVec.and_append, BitVec.and_append]
  congr 3
  · exact BitVec.and_allOnes
  · exact BitVec.and_zero
  · exact BitVec.and_zero
  · exact BitVec.and_allOnes

theorem formatXYN_selected (op : BitVec 4) (x y n : Reg) :
    OpcodeRow.selects (0xF000#16, op ++ 0#12) (formatXY op x y (nibble n)) = true := by
  simp only [OpcodeRow.selects, formatXY, beq_iff_eq,
    show (0xF000#16 : Word) = 0xF#4 ++ 0x0#4 ++ 0x0#4 ++ 0x0#4 from rfl,
    show (op ++ 0#12 : Word) = op ++ 0x0#4 ++ 0x0#4 ++ 0x0#4 from by revert op; decide]
  rw [BitVec.and_append, BitVec.and_append, BitVec.and_append]
  congr 3
  · exact BitVec.and_allOnes
  · exact BitVec.and_zero
  · exact BitVec.and_zero
  · exact BitVec.and_zero

/-- The statement of an instruction with a row. -/
theorem of_row {i : Instr} {r : OpcodeRow} (hr : row i = some r) (hmem : r ∈ opcodeMap)
    (hsel : r.selects (encode i) = true) : Statement i := by
  intro _
  rw [hr]
  exact ⟨hmem, hsel⟩

theorem cls : Statement .cls := of_row rfl (by decide) (by decide)
theorem ret : Statement .ret := of_row rfl (by decide) (by decide)
theorem jp (nnn : Addr) : Statement (.jp nnn) := of_row rfl (by decide) (formatA_selected 0x1#4 nnn)
theorem call (nnn : Addr) : Statement (.call nnn) := of_row rfl (by decide) (formatA_selected 0x2#4 nnn)
theorem seImm (x : Reg) (nn : Byte) : Statement (.seImm x nn) := of_row rfl (by decide) (formatXB_selected 0x3#4 x nn)
theorem sneImm (x : Reg) (nn : Byte) : Statement (.sneImm x nn) := of_row rfl (by decide) (formatXB_selected 0x4#4 x nn)
theorem seReg (x y : Reg) : Statement (.seReg x y) := of_row rfl (by decide) (formatXY_selected 0x5#4 x y 0x0#4)
theorem ldImm (x : Reg) (nn : Byte) : Statement (.ldImm x nn) := of_row rfl (by decide) (formatXB_selected 0x6#4 x nn)
theorem addImm (x : Reg) (nn : Byte) : Statement (.addImm x nn) := of_row rfl (by decide) (formatXB_selected 0x7#4 x nn)
theorem ldReg (x y : Reg) : Statement (.ldReg x y) := of_row rfl (by decide) (formatXY_selected 0x8#4 x y 0x0#4)
theorem orReg (x y : Reg) : Statement (.orReg x y) := of_row rfl (by decide) (formatXY_selected 0x8#4 x y 0x1#4)
theorem andReg (x y : Reg) : Statement (.andReg x y) := of_row rfl (by decide) (formatXY_selected 0x8#4 x y 0x2#4)
theorem xorReg (x y : Reg) : Statement (.xorReg x y) := of_row rfl (by decide) (formatXY_selected 0x8#4 x y 0x3#4)
theorem addReg (x y : Reg) : Statement (.addReg x y) := of_row rfl (by decide) (formatXY_selected 0x8#4 x y 0x4#4)
theorem subReg (x y : Reg) : Statement (.subReg x y) := of_row rfl (by decide) (formatXY_selected 0x8#4 x y 0x5#4)
theorem shr (x y : Reg) : Statement (.shr x y) := of_row rfl (by decide) (formatXY_selected 0x8#4 x y 0x6#4)
theorem subnReg (x y : Reg) : Statement (.subnReg x y) := of_row rfl (by decide) (formatXY_selected 0x8#4 x y 0x7#4)
theorem shl (x y : Reg) : Statement (.shl x y) := of_row rfl (by decide) (formatXY_selected 0x8#4 x y 0xE#4)
theorem sneReg (x y : Reg) : Statement (.sneReg x y) := of_row rfl (by decide) (formatXY_selected 0x9#4 x y 0x0#4)
theorem ldI (nnn : Addr) : Statement (.ldI nnn) := of_row rfl (by decide) (formatA_selected 0xA#4 nnn)
theorem jpV0 (nnn : Addr) : Statement (.jpV0 nnn) := of_row rfl (by decide) (formatA_selected 0xB#4 nnn)
theorem rnd (x : Reg) (nn : Byte) : Statement (.rnd x nn) := of_row rfl (by decide) (formatXB_selected 0xC#4 x nn)
theorem drw (x y : Reg) (n : Fin 16) : Statement (.drw x y n) := of_row rfl (by decide) (formatXYN_selected 0xD#4 x y n)
theorem skp (x : Reg) : Statement (.skp x) := of_row rfl (by decide) (formatX_selected 0xE#4 x 0x9E#8)
theorem sknp (x : Reg) : Statement (.sknp x) := of_row rfl (by decide) (formatX_selected 0xE#4 x 0xA1#8)
theorem ldVxDt (x : Reg) : Statement (.ldVxDt x) := of_row rfl (by decide) (formatX_selected 0xF#4 x 0x07#8)
theorem ldVxK (x : Reg) : Statement (.ldVxK x) := of_row rfl (by decide) (formatX_selected 0xF#4 x 0x0A#8)
theorem ldDtVx (x : Reg) : Statement (.ldDtVx x) := of_row rfl (by decide) (formatX_selected 0xF#4 x 0x15#8)
theorem ldStVx (x : Reg) : Statement (.ldStVx x) := of_row rfl (by decide) (formatX_selected 0xF#4 x 0x18#8)
theorem addI (x : Reg) : Statement (.addI x) := of_row rfl (by decide) (formatX_selected 0xF#4 x 0x1E#8)
theorem ldF (x : Reg) : Statement (.ldF x) := of_row rfl (by decide) (formatX_selected 0xF#4 x 0x29#8)
theorem ldB (x : Reg) : Statement (.ldB x) := of_row rfl (by decide) (formatX_selected 0xF#4 x 0x33#8)
theorem dump (x : Reg) : Statement (.dump x) := of_row rfl (by decide) (formatX_selected 0xF#4 x 0x55#8)
theorem load (x : Reg) : Statement (.load x) := of_row rfl (by decide) (formatX_selected 0xF#4 x 0x65#8)
theorem nop (w : Word) : Statement (.nop w) := fun h r hr => by
  have hall : unrecognised w = true := h
  simpa [encode] using List.all_eq_true.mp hall r hr

end Sys2Proof.Laws.FixedBits
end

