-- ==== Sys2Proof/Tests/Slice0.lean ====
section
/-! SUPPORT. Small tests. Expected results are the spec's own vectors (95_test_vectors.md; the vector's name stands in
each docstring) or words written out from its encodings (30_encoding.md rule R53). -/

namespace Sys2Proof.Tests

open Sys2Proof.Machine

/-! ## Decoding: one word per constructor, bit by bit from rule R53 -/

theorem test_decode_cls : decode 0b0000_0000_1110_0000#16 = .cls := by decide
theorem test_decode_ret : decode 0b0000_0000_1110_1110#16 = .ret := by decide
theorem test_decode_jp : decode 0b0001_0010_0000_0100#16 = .jp 0x204#12 := by decide
theorem test_decode_call : decode 0b0010_1010_1011_1100#16 = .call 0xABC#12 := by decide
theorem test_decode_seImm : decode 0b0011_1111_0000_0001#16 = .seImm 15 0x01#8 := by decide
theorem test_decode_sneImm : decode 0b0100_0011_0001_0001#16 = .sneImm 3 0x11#8 := by decide
theorem test_decode_seReg : decode 0b0101_0001_0010_0000#16 = .seReg 1 2 := by decide
theorem test_decode_ldImm : decode 0b0110_0000_0000_0101#16 = .ldImm 0 0x05#8 := by decide
theorem test_decode_addImm : decode 0b0111_0000_0000_0011#16 = .addImm 0 0x03#8 := by decide
theorem test_decode_ldReg : decode 0b1000_0001_0010_0000#16 = .ldReg 1 2 := by decide
theorem test_decode_orReg : decode 0b1000_0001_0010_0001#16 = .orReg 1 2 := by decide
theorem test_decode_andReg : decode 0b1000_0001_0010_0010#16 = .andReg 1 2 := by decide
theorem test_decode_xorReg : decode 0b1000_0001_0010_0011#16 = .xorReg 1 2 := by decide
theorem test_decode_addReg : decode 0b1000_1111_0001_0100#16 = .addReg 15 1 := by decide
theorem test_decode_subReg : decode 0b1000_0001_0010_0101#16 = .subReg 1 2 := by decide
theorem test_decode_shr : decode 0b1000_0001_0010_0110#16 = .shr 1 2 := by decide
theorem test_decode_subnReg : decode 0b1000_0001_0010_0111#16 = .subnReg 1 2 := by decide
theorem test_decode_shl : decode 0b1000_0001_0010_1110#16 = .shl 1 2 := by decide
theorem test_decode_sneReg : decode 0b1001_0001_0010_0000#16 = .sneReg 1 2 := by decide
theorem test_decode_ldI : decode 0b1010_0011_0000_0000#16 = .ldI 0x300#12 := by decide
theorem test_decode_jpV0 : decode 0b1011_1111_1111_1111#16 = .jpV0 0xFFF#12 := by decide
theorem test_decode_rnd : decode 0b1100_0001_0000_1111#16 = .rnd 1 0x0F#8 := by decide
theorem test_decode_drw : decode 0b1101_0001_0010_0101#16 = .drw 1 2 5 := by decide
theorem test_decode_skp : decode 0b1110_1001_1001_1110#16 = .skp 9 := by decide
theorem test_decode_sknp : decode 0b1110_0110_1010_0001#16 = .sknp 6 := by decide
theorem test_decode_ldVxDt : decode 0b1111_0001_0000_0111#16 = .ldVxDt 1 := by decide
theorem test_decode_ldVxK : decode 0b1111_0011_0000_1010#16 = .ldVxK 3 := by decide
theorem test_decode_ldDtVx : decode 0b1111_1010_0001_0101#16 = .ldDtVx 10 := by decide
theorem test_decode_ldStVx : decode 0b1111_0010_0001_1000#16 = .ldStVx 2 := by decide
theorem test_decode_addI : decode 0b1111_0010_0001_1110#16 = .addI 2 := by decide
theorem test_decode_ldF : decode 0b1111_0011_0010_1001#16 = .ldF 3 := by decide
theorem test_decode_ldB : decode 0b1111_0100_0011_0011#16 = .ldB 4 := by decide
theorem test_decode_dump : decode 0b1111_0101_0101_0101#16 = .dump 5 := by decide
theorem test_decode_load : decode 0b1111_0010_0110_0101#16 = .load 2 := by decide
theorem test_decode_nop : decode 0b0101_0001_0010_0001#16 = .nop 0x5121#16 := by decide

/-- Vectors X17 to X21 and Q12: unrecognised words. -/
theorem test_decode_unrecognised : decode 0x8018#16 = .nop 0x8018#16 ∧ decode 0xF0FF#16 = .nop 0xF0FF#16 ∧
    decode 0xE000#16 = .nop 0xE000#16 ∧ decode 0x0123#16 = .nop 0x0123#16 ∧ decode 0xFFFF#16 = .nop 0xFFFF#16 ∧
    decode 0x9121#16 = .nop 0x9121#16 ∧ decode 0x0000#16 = .nop 0x0000#16 := by decide

theorem test_decode_bytes_big_endian : decodeBytes [0x8F#8, 0x14#8, 0x99#8] = .ok (.addReg 15 1, [0x99#8]) := by rfl

theorem test_decode_truncated : decodeBytes [0x8F#8] = .error .truncated := by rfl

theorem test_decode_table_word : decodeTableWord 16 0xD125 = some (.drw 1 2 5) := by decide

/-- Well-formedness has one check: a no-operation's word is unrecognised; a recognised word fails it. -/
theorem test_wellFormed_refuses_recognised_nop : ¬ (Instr.nop 0x00E0#16).WellFormed := by decide

theorem test_wellFormed_accepts_unrecognised_nop : (Instr.nop 0x00E1#16).WellFormed := by decide

/-! ## One step each on a small state -/

/-- A state with a tick period of 10, `LTT = 100` and a host that makes no call and steps at `now = 100` with
`rand = 0xA7`: no tick is due. -/
def base : State :=
  { State.initial { Configuration.canonical with tickPeriod := 10 } [] 100 with
    schedule := [{ calls := [], now := 100, rand := 0xA7#8 }] }

/-- `base` with some general registers set. -/
def withRegs (l : List (Reg × Byte)) (s : State) : State := l.foldl (fun s p => s.setReg p.1 p.2) s

/-- `base` with keys pressed. -/
def withKeys (l : List Key) (s : State) : State := { s with keys := l.foldl (fun v k => v.set k.val true) s.keys }

/-- One field of the state after the instruction `w` at `PC`. -/
def after {α : Type} (w : Nat) (s : State) (f : State → α) : Option α :=
  match step (s.withFetchWord 16 w) with
  | .next t => some (f t)
  | .fault _ => none
  | .refused _ => none

/-- Vector X1. -/
theorem test_nop_last_word : after 0x0000 ({ base with pc := 0xFFE#16 })
    (fun t => (t.pc, t.result)) = some (0x1000#16, .ok) := by decide

/-- Vector X13. -/
theorem test_fetch_word_at_odd_address : after 0x612A ({ base with pc := 0x201#16 })
    (fun t => (t.reg 1, t.pc)) = some (0x2A#8, 0x203#16) := by decide

/-- Vector X7. -/
theorem test_fetch_wraps : after 0x6042 ({ base with pc := 0xFFF#16, cfg := { base.cfg with pcOverrunPolicy := .wrap } })
    (fun t => (t.reg 0, t.pc, t.byteAt 0)) = some (0x42#8, 0x001#16, 0x42#8) := by decide

/-- Vector X15. -/
theorem test_jp_self : after 0x1200 (base)
    (fun t => t.pc) = some 0x0200#16 := by decide

/-- Vector X9. -/
theorem test_ret_underflow : after 0x00EE (base)
    (fun t => (t.pc, t.sp, t.result)) = some (0x0202#16, 0, .err .stackUnderflow) := by decide

/-- Vector X12. -/
theorem test_ret_pops : after 0x00EE ({ base with sp := 1 })
    (fun t => (t.pc, t.sp, t.result)) = some (0x0000#16, 0, .ok) := by decide

/-- Vector X10. -/
theorem test_call_overflow : after 0x2ABC ({ base with sp := 16 })
    (fun t => (t.pc, t.sp, t.result)) = some (0x0202#16, 16, .err .stackOverflow) := by decide

/-- Vector X11. -/
theorem test_call_pushes : after 0x2FFF ({ base with pc := 0xFFE#16 })
    (fun t => (t.pc, t.sp, t.stack[0])) = some (0x0FFF#16, 1, 0x1000#16) := by decide

/-- Vector Q13. -/
theorem test_seImm_compares_vf : after 0x3F01 (withRegs [(15, 1)] base)
    (fun t => t.pc) = some 0x0204#16 := by decide

/-- Vector Q2. -/
theorem test_seImm_not_taken : after 0x3000 ({ withRegs [(0, 1)] base with pc := 0x208#16 })
    (fun t => t.pc) = some 0x020A#16 := by decide

/-- Vector Q3. -/
theorem test_sneImm_taken : after 0x4311 ({ withRegs [(3, 0x10)] base with pc := 0x300#16 })
    (fun t => t.pc) = some 0x0304#16 := by decide

/-- Vector Q4. -/
theorem test_sneImm_not_taken : after 0x4310 ({ withRegs [(3, 0x10)] base with pc := 0x300#16 })
    (fun t => t.pc) = some 0x0302#16 := by decide

/-- Vector Q5. -/
theorem test_seReg_taken : after 0x5120 ({ withRegs [(1, 7), (2, 7)] base with pc := 0x210#16 })
    (fun t => t.pc) = some 0x0214#16 := by decide

/-- Vector Q6. -/
theorem test_seReg_not_taken : after 0x5120 ({ withRegs [(1, 7), (2, 8)] base with pc := 0x210#16 })
    (fun t => t.pc) = some 0x0212#16 := by decide

/-- Vector Q8. -/
theorem test_sneReg_taken : after 0x9120 ({ withRegs [(1, 7), (2, 8)] base with pc := 0x210#16 })
    (fun t => t.pc) = some 0x0214#16 := by decide

/-- Vector Q9. -/
theorem test_sneReg_not_taken : after 0x9120 ({ withRegs [(1, 7), (2, 7)] base with pc := 0x210#16 })
    (fun t => t.pc) = some 0x0212#16 := by decide

/-- Vector X5. -/
theorem test_skip_past_memory_fails : after 0x3000 ({ base with pc := 0xFFE#16 })
    (fun t => (t.pc, t.result)) = some (0x1000#16, .err .addressOutOfRange) := by decide

/-- Vector X8. -/
theorem test_skip_wraps : after 0x3000 ({ base with pc := 0xFFE#16, cfg := { base.cfg with pcOverrunPolicy := .wrap } })
    (fun t => (t.pc, t.result)) = some (0x0002#16, .ok) := by decide

/-- Vector H2. -/
theorem test_jpV0_unmasked : after 0xBFFF (withRegs [(0, 0xFF)] base)
    (fun t => (t.pc, t.reg 15)) = some (0x10FE#16, 0x00#8) := by decide

/-- Vector H4. -/
theorem test_jpV0_adds_vx : after 0xB300 ({ withRegs [(0, 0x10), (3, 0x20)] base with cfg := { base.cfg with jumpAddsVx := true } })
    (fun t => t.pc) = some 0x0320#16 := by decide

/-- Vector L8. -/
theorem test_ldImm_vf : after 0x6FAB (base)
    (fun t => t.reg 15) = some 0xAB#8 := by decide

/-- Vector L2. -/
theorem test_addImm_wraps_without_flag : after 0x7002 (withRegs [(0, 0xFF), (15, 7)] base)
    (fun t => (t.reg 0, t.reg 15)) = some (0x01#8, 0x07#8) := by decide

/-- Vector L7. -/
theorem test_ldReg : after 0x8120 (withRegs [(2, 0xAB)] base)
    (fun t => (t.reg 1, t.reg 2)) = some (0xAB#8, 0xAB#8) := by decide

/-- Vector L3. -/
theorem test_orReg : after 0x8121 (withRegs [(1, 0xF0), (2, 0x0F), (15, 9)] base)
    (fun t => (t.reg 1, t.reg 15)) = some (0xFF#8, 0x09#8) := by decide

/-- Vector L4. -/
theorem test_andReg : after 0x8122 (withRegs [(1, 0xF3), (2, 0x3F), (15, 9)] base)
    (fun t => (t.reg 1, t.reg 15)) = some (0x33#8, 0x09#8) := by decide

/-- Vector L5. -/
theorem test_xorReg : after 0x8123 (withRegs [(1, 0xFF), (2, 0x0F), (15, 9)] base)
    (fun t => (t.reg 1, t.reg 15)) = some (0xF0#8, 0x09#8) := by decide

/-- Vector A1. -/
theorem test_addReg_carry : after 0x8014 (withRegs [(0, 0xFF), (1, 1)] base)
    (fun t => (t.reg 0, t.reg 15)) = some (0x00#8, 0x01#8) := by decide

/-- Vector A4. -/
theorem test_addReg_flag_last : after 0x8F14 (withRegs [(15, 0x10), (1, 0x20)] base)
    (fun t => t.reg 15) = some 0x00#8 := by decide

/-- Vector B2. -/
theorem test_subReg_borrow : after 0x8015 (withRegs [(0, 3), (1, 5)] base)
    (fun t => (t.reg 0, t.reg 15)) = some (0xFE#8, 0x00#8) := by decide

/-- Vector B3. -/
theorem test_subReg_equal : after 0x8015 (withRegs [(0, 7), (1, 7)] base)
    (fun t => (t.reg 0, t.reg 15)) = some (0x00#8, 0x01#8) := by decide

/-- Vector B6. -/
theorem test_subnReg : after 0x8017 (withRegs [(0, 3), (1, 5)] base)
    (fun t => (t.reg 0, t.reg 15)) = some (0x02#8, 0x01#8) := by decide

/-- Vector B7. -/
theorem test_subnReg_borrow : after 0x8017 (withRegs [(0, 5), (1, 3)] base)
    (fun t => (t.reg 0, t.reg 15)) = some (0xFE#8, 0x00#8) := by decide

/-- Vector Y1. -/
theorem test_shr_copies_vy : after 0x8016 (withRegs [(0, 0xAA), (1, 5)] base)
    (fun t => (t.reg 0, t.reg 1, t.reg 15)) = some (0x02#8, 0x05#8, 0x01#8) := by decide

/-- Vector Y5. -/
theorem test_shr_in_place : after 0x8016 ({ withRegs [(0, 5), (1, 0xAA)] base with cfg := { base.cfg with shiftUsesCopy := false } })
    (fun t => (t.reg 0, t.reg 1, t.reg 15)) = some (0x02#8, 0xAA#8, 0x01#8) := by decide

/-- Vector Y6. -/
theorem test_shl_copies_vy : after 0x801E (withRegs [(1, 0x81)] base)
    (fun t => (t.reg 0, t.reg 1, t.reg 15)) = some (0x02#8, 0x81#8, 0x01#8) := by decide

/-- Vector Y9. -/
theorem test_shl_in_place : after 0x801E ({ withRegs [(0, 0x81)] base with cfg := { base.cfg with shiftUsesCopy := false } })
    (fun t => (t.reg 0, t.reg 15)) = some (0x02#8, 0x01#8) := by decide

/-- Vector E0. -/
theorem test_ldI : after 0xA300 (base)
    (fun t => t.i) = some 0x0300#16 := by decide

/-- Vector E1. -/
theorem test_addI_overflow : after 0xF21E ({ withRegs [(2, 3)] base with i := 0xFFE#16 })
    (fun t => (t.i, t.reg 15)) = some (0x0001#16, 0x01#8) := by decide

/-- Vector E2. -/
theorem test_addI_writes_zero_flag : after 0xF21E ({ withRegs [(2, 0x10), (15, 1)] base with i := 0x100#16 })
    (fun t => (t.i, t.reg 15)) = some (0x0110#16, 0x00#8) := by decide

/-- Vector E8. -/
theorem test_ldF_low_nibble : after 0xF329 (withRegs [(3, 0x1F)] base)
    (fun t => t.i) = some 0x009B#16 := by decide

/-- Vector F1. -/
theorem test_ldB : after 0xF033 ({ withRegs [(0, 254)] base with i := 0x300#16 })
    (fun t => (t.byteAt 0x300, t.byteAt 0x301, t.byteAt 0x302)) = some (2#8, 5#8, 4#8) := by decide

/-- Vector F7. -/
theorem test_ldB_wraps : after 0xF033 ({ withRegs [(0, 123)] base with i := 0xFFE#16 })
    (fun t => (t.byteAt 0xFFE, t.byteAt 0xFFF, t.byteAt 0)) = some (1#8, 2#8, 3#8) := by decide

/-- Vector M2, two of its bytes. -/
theorem test_dump_all_registers : after 0xF055 ({ withRegs [(0, 0xA0), (8, 0xA8), (15, 0xAF)] base with i := 0xFF8#16 })
    (fun t => (t.byteAt 0xFF8, t.byteAt 0x000, t.byteAt 0x007, t.i)) = some (0xA0#8, 0xA8#8, 0xAF#8, 0xFF8#16) := by decide

/-- Vector M4. -/
theorem test_dump_increments : after 0xF055 ({ base with i := 0x400#16, cfg := { base.cfg with dumpLoadIncrementsIndex := true } })
    (fun t => t.i) = some 0x0410#16 := by decide

/-- Vector M3, three of its registers. -/
theorem test_load_all_registers : after 0xF065 ({ base with i := 0x400#16, mem := [(0x400, 0x10#8), (0x401, 0x11#8), (0x40F, 0x1F#8)] })
    (fun t => (t.reg 0, t.reg 1, t.reg 15, t.i)) = some (0x10#8, 0x11#8, 0x1F#8, 0x400#16) := by decide

/-- Vector I1. -/
theorem test_rnd_masks : after 0xC10F (base)
    (fun t => t.reg 1) = some 0x07#8 := by decide

/-- Vector W12. -/
theorem test_cls : after 0x00E0 ({ withRegs [(15, 1)] base with fb := base.fb.flip 3 3 })
    (fun t => (t.fb.cell 3 3, t.changed, t.reg 15)) = some (false, true, 0x01#8) := by decide

/-- Vector W1. -/
theorem test_drw_clips_right : after 0xD011 ({ withRegs [(0, 60)] base with i := 0x300#16, mem := [(0x300, 0xFF#8)] })
    (fun t => (t.fb.cell 0 59, t.fb.cell 0 60, t.fb.cell 0 63, t.fb.cell 0 0, t.reg 15, t.changed)) = some (false, true, true, false, 0x00#8, true) := by decide

/-- Vector W5. -/
theorem test_drw_collides : after 0xD011 ({ base with i := 0x300#16, mem := [(0x300, 0xC0#8)], fb := base.fb.flip 0 0 })
    (fun t => (t.fb.cell 0 0, t.fb.cell 0 1, t.reg 15)) = some (false, true, 0x01#8) := by decide

/-- Vector K5. -/
theorem test_skp_taken : after 0xE09E (withKeys [5] (withRegs [(0, 0x15)] base))
    (fun t => (t.pc, t.key 5)) = some (0x0204#16, true) := by decide

/-- Vector K2. -/
theorem test_skp_not_taken : after 0xE09E (withRegs [(0, 5)] base)
    (fun t => t.pc) = some 0x0202#16 := by decide

/-- Vector K3. -/
theorem test_sknp_taken : after 0xE0A1 (withRegs [(0, 5)] base)
    (fun t => t.pc) = some 0x0204#16 := by decide

/-- Vector K4. -/
theorem test_sknp_not_taken : after 0xE0A1 (withKeys [5] (withRegs [(0, 5)] base))
    (fun t => t.pc) = some 0x0202#16 := by decide

/-- Vector K6. -/
theorem test_ldVxK_waits : after 0xF00A (base)
    (fun t => (t.pc, t.result)) = some (0x0200#16, .ok) := by decide

/-- Vector K7. -/
theorem test_ldVxK_least_key : after 0xF30A (withKeys [4, 9, 12] base)
    (fun t => (t.reg 3, t.key 4, t.key 9, t.pc)) = some (0x04#8, false, true, 0x0202#16) := by decide

/-- Vector T4. -/
theorem test_ldVxDt_after_tick : after 0xF107 ({ base with dt := 6#8, schedule := [⟨[], 110, 0⟩] })
    (fun t => (t.dt, t.reg 1, t.ltt)) = some (5#8, 5#8, 110) := by decide

/-- Vector T7. -/
theorem test_ldVxDt_byPeriod : after 0xF107 ({ base with dt := 6#8, st := 3#8, schedule := [⟨[], 135, 0⟩], cfg := { base.cfg with tickAdvance := .byPeriod } })
    (fun t => (t.dt, t.st, t.reg 1, t.ltt)) = some (5#8, 2#8, 5#8, 110) := by decide

/-- Vector T9. -/
theorem test_ldDtVx_after_tick : after 0xF015 ({ withRegs [(0, 7)] base with dt := 3#8, schedule := [⟨[], 110, 0⟩] })
    (fun t => (t.dt, t.ltt)) = some (7#8, 110) := by decide

/-- Vector T3. -/
theorem test_ldStVx : after 0xF218 (withRegs [(2, 0x1E)] base)
    (fun t => t.st) = some 0x1E#8 := by decide

/-- Vector T8. -/
theorem test_clock_backwards : after 0xF107 ({ base with dt := 6#8, schedule := [⟨[], 50, 0⟩] })
    (fun t => (t.ltt, t.reg 1)) = some (100, 6#8) := by decide

/-- Vector P5, step 2: the host presses key 7 before the step. -/
theorem test_scheduled_key_press : after 0xF00A ({ base with schedule := [⟨[.setKey 7 true], 100, 0⟩] })
    (fun t => (t.reg 0, t.key 7, t.pc)) = some (0x07#8, false, 0x0202#16) := by decide

/-- Vector X3: a fetch beyond memory. -/
theorem test_fetch_fails : (match step { base with pc := 0x1000#16 } with
    | .next t => some (t.pc, t.result)
    | .fault _ => none
    | .refused _ => none) = some (0x1000#16, .err .addressOutOfRange) := by decide

/-- Rule R38: the font stands at `0x050` after reset. -/
theorem test_reset_font : (State.reset.byteAt 0x04F, State.reset.byteAt 0x050, State.reset.byteAt 0x09F,
    State.reset.byteAt 0x0A0) = (0x00#8, 0xF0#8, 0x80#8, 0x00#8) := by decide

/-- Program P1's ROM, placed by the host's reset. -/
theorem test_hostReset_places_rom : (match hostReset { Configuration.canonical with tickPeriod := 10 } defaultFont
      [0x60#8, 0x05#8, 0x70#8, 0x03#8, 0x00#8, 0xEE#8] 0 with
    | .next t => some (t.byteAt 0x200, t.byteAt 0x205, t.byteAt 0x206, t.pc, t.mem.length)
    | .fault _ => none
    | .refused _ => none) = some (0x60#8, 0xEE#8, 0x00#8, 0x0200#16, 5) := by decide

/-- Rule R99: an index above 15 is refused. -/
theorem test_hostSetKey_refuses : (match hostSetKey 16 true base with
    | .next _ => false
    | .fault _ => false
    | .refused r => r == .keyIndexOutOfRange) = true := by decide

/-! ## Witnesses: concrete states and operands that meet the hypotheses of the statements, at the boundaries of
their clauses -/

/-- `base` with the `wrap` policy. -/
def wrapped : State := { base with cfg := { base.cfg with pcOverrunPolicy := .wrap } }

theorem witness_DecodeOfEncodeIsIdentity : (Instr.nop 0x8018#16).WellFormed ∧ (Instr.drw 15 0 15).WellFormed := by
  decide

theorem witness_StepRunsDecodedInstruction_report :
    let s := { base with pc := 0xFFE#16 }
    decodeBytes [s.byteAt s.pc.toNat, s.byteAt (s.pc.toNat + 1)] = .ok (.nop 0x0000#16, []) ∧
    s.cfg.pcOverrunPolicy = .report ∧ s.pc.toNat ≤ 0xFFE := ⟨rfl, by decide, by decide⟩

theorem witness_StepRunsDecodedInstruction_wrap :
    let s := { wrapped with pc := 0xFFF#16, mem := [(0, 0x42#8), (0xFFF, 0x60#8)] }
    decodeBytes [s.byteAt s.pc.toNat, s.byteAt (s.pc.toNat + 1)] = .ok (.ldImm 0 0x42#8, []) ∧
    s.cfg.pcOverrunPolicy = .wrap := ⟨rfl, by decide⟩

theorem witness_StepBeginsWithHostCallsAndTimerPhase :
    base.schedule = [⟨[], 100, 0xA7#8⟩] ∧ State.reset.schedule = [] := ⟨rfl, rfl⟩

theorem witness_TimerPhase_not_due : (99 < base.ltt ∨ 99 - base.ltt < base.cfg.tickPeriod) ∧
    (109 < base.ltt ∨ 109 - base.ltt < base.cfg.tickPeriod) := by decide

theorem witness_TimerPhase_due : base.ltt ≤ 110 ∧ base.cfg.tickPeriod ≤ 110 - base.ltt ∧
    base.cfg.tickAdvance = .toNow ∧ { base.cfg with tickAdvance := .byPeriod }.tickAdvance = .byPeriod := by decide

theorem witness_DelayTimerReadSeesTickOfSameStep :
    let s := { base with dt := 1#8, schedule := [⟨[], 110, 0⟩], mem := [(0x200, 0xF1#8), (0x201, 0x07#8)] }
    s.schedule = [⟨[], 110, 0⟩] ∧ s.ltt ≤ 110 ∧ s.cfg.tickPeriod ≤ 110 - s.ltt ∧ s.fetchFails = false ∧
    decode s.wordAtPc = .ldVxDt 1 := by decide

theorem witness_FetchBeyondMemoryFailsEveryStep : let s := { base with pc := 0xFFF#16 }
    s.cfg.pcOverrunPolicy = .report ∧ 0xFFE < s.pc.toNat := by decide

theorem witness_StepFailsExactlyAsListed_call :
    after 0x2ABC { base with sp := 16 } State.result = some (.err .stackOverflow) := by decide

theorem witness_StepFailsExactlyAsListed_fetch :
    ∃ t, step { base with pc := 0xFFF#16 } = .next t ∧ t.result = .err .addressOutOfRange := ⟨_, rfl, rfl⟩

theorem witness_base_inv : base.Inv where
  cfg := by decide
  mem := by decide
  i := by decide
  fb := by decide
  pc := by decide
  stack := by decide

/-- `PC`, `I` and the return addresses at their highest, a full stack. -/
def edge : State :=
  { base with
    pc := 0x10FE#16
    i := 0xFFF#16
    sp := 16
    stack := Vector.replicate 16 0x1000#16
    mem := [(0xFFF, 0x01#8)] }

theorem witness_edge_inv : edge.Inv where
  cfg := by decide
  mem := by decide
  i := by decide
  fb := by decide
  pc := by decide
  stack := by decide

theorem witness_step_next : ∃ t, step base = .next t := ⟨_, rfl⟩

theorem witness_ConfigurationNeverChanges : (∃ t, hostSetKey 15 true base = .next t) ∧
    ∃ t, hostReset base.cfg (List.replicate 80 0x11#8) [] 0 = .next t := ⟨⟨_, rfl⟩, _, rfl⟩

theorem witness_TimersFallByAtMostOnePerStep : (∃ t, step base = .next t) ∧
    (∀ x, decode base.wordAtPc ≠ .ldDtVx x) ∧ (∀ x, decode base.wordAtPc ≠ .ldStVx x) :=
  ⟨⟨_, rfl⟩, by decide, by decide⟩

theorem witness_StateIsWrittenOnlyByItsListedWriters : ∃ t, exec (.dump 3) base = .next t := ⟨_, rfl⟩

theorem witness_OnlyRandomReadsRandomInput :
    (∀ x nn, Instr.addReg 1 2 ≠ .rnd x nn) ∧ ∃ t, exec (.addReg 1 2) base = .next t :=
  ⟨fun _ _ h => (nomatch h), _, rfl⟩

theorem witness_JumpLoadsAddress_last : (0xFFF#12 : Addr) = 0xFFF#12 ∧ base.cfg.pcOverrunPolicy = .report := by decide

theorem witness_JumpLoadsAddress_self :
    let s := { base with pc := 0xFFE#16, mem := [(0xFFE, 0x1F#8), (0xFFF, 0xFE#8)] }
    s.pc.toNat ≤ 0xFFE ∧ s.wordAtPc.toNat = 0x1000 + s.pc.toNat := by decide

theorem witness_FetchIsBigEndian : ({ base with pc := 0xFFE#16 } : State).pc.toNat ≤ 0xFFE ∧
    (∃ t, exec (.ldB 0) base = .next t) ∧ ∃ t, exec (.dump 0) base = .next t := ⟨by decide, ⟨_, rfl⟩, _, rfl⟩

/-- Stored bytes at the wrap of memory: `PC` on the first of them, and `PC` below the last. -/
theorem witness_StoredBytesAreFetched : let s := { base with i := 0xFFE#16, pc := 0xFFE#16 }
    let r := { base with i := 0xFFF#16, pc := 0x00D#16 }
    (∃ t, exec (.ldB 0) s = .next t ∧ t.fetchFails = false ∧ t.pc.toNat % 4096 = s.ea 0) ∧
    (∃ t, exec (.dump 0) r = .next t ∧ t.fetchFails = false ∧ (t.pc.toNat + 1) % 4096 = r.ea 15) ∧
    r.v.toList[15]? = some 0x00#8 :=
  ⟨⟨_, rfl, by decide, by decide⟩, ⟨_, rfl, by decide, by decide⟩, by decide⟩

theorem witness_MemWriteSetsOneByte : let s := { base with pc := 0xFFF#16 }
    s.pc.toNat % 4096 = 0x1FFF % 4096 ∧ (s.pc.toNat + 1) % 4096 = 0x1000 % 4096 ∧ Memory.wf s.mem ∧
    0xFFE % 4096 ≠ 0x1FFF % 4096 := by decide

theorem witness_ReturnPopsOrUnderflows : base.sp = 0 ∧
    ({ base with sp := 1 } : State).sp.val = (0 : Fin 16).val + 1 ∧
    ({ base with sp := 16 } : State).sp.val = (15 : Fin 16).val + 1 ∧
    base.cfg.pcOverrunPolicy = .report ∧ wrapped.cfg.pcOverrunPolicy = .wrap := by decide

theorem witness_CallPushesOrOverflows : ({ base with sp := 16 } : State).sp.val = 16 ∧
    base.sp.val = (0 : Fin 16).val ∧ ({ base with sp := 15 } : State).sp.val = (15 : Fin 16).val := by decide

theorem witness_NestedCallsReturnInReverseOrder : let cs : List (Word × Addr) := List.replicate 16 (0xFFF#16, 0xABC#12)
    base.sp.val + cs.length ≤ 16 ∧ wrapped.sp.val + cs.length ≤ 16 ∧
    (wrapped.cfg.pcOverrunPolicy = .wrap → ∀ c ∈ cs, c.1.toNat < 4096) :=
  ⟨by decide, by decide, fun _ c hc => by rw [List.eq_of_mem_replicate hc]; decide⟩

/-- A skip's condition holds with `PC` at its last fetchable value, beyond it, and under `wrap`; and it does not. -/
theorem witness_RegisterSkipsSkipOnTheirCondition : base.reg 0 = 0x00#8 ∧ base.reg 0 ≠ 0x01#8 ∧
    base.reg 0 = base.reg 1 ∧ (withRegs [(0, 1)] base).reg 0 ≠ (withRegs [(0, 1)] base).reg 1 ∧
    base.cfg.pcOverrunPolicy = .report ∧ ({ base with pc := 0xFFE#16 } : State).pc.toNat ≤ 0xFFE ∧
    0xFFE < ({ base with pc := 0xFFF#16 } : State).pc.toNat ∧ wrapped.cfg.pcOverrunPolicy = .wrap := by decide

theorem witness_JumpWithOffsetAddsRegister : base.cfg.jumpAddsVx = false ∧
    { base.cfg with jumpAddsVx := true }.jumpAddsVx = true ∧ base.cfg.pcOverrunPolicy = .report ∧
    wrapped.cfg.pcOverrunPolicy = .wrap := by decide

theorem witness_UnrecognisedWordDoesNothing : unrecognised 0x0000#16 = true ∧ base.fetchFails = false ∧
    base.wordAtPc = 0x0000#16 := by decide

theorem witness_AddRegistersSetsCarry : let s := withRegs [(0, 0xFF), (1, 1)] base
    255 < (s.reg 0).toNat + (s.reg 1).toNat ∧ ¬ 255 < (s.reg 0).toNat + (s.reg 2).toNat := by decide

theorem witness_SubtractRegistersSetsNotBorrow : let s := withRegs [(0, 7), (1, 7), (2, 8)] base
    (s.reg 1).toNat ≤ (s.reg 0).toNat ∧ ¬ (s.reg 2).toNat ≤ (s.reg 0).toNat := by decide

theorem witness_ShiftsMoveOneBitIntoFlag : let s := withRegs [(0, 0x01), (1, 0x80)] base
    (s.cfg.shiftUsesCopy = true → 0x80#8 = s.reg 1) ∧ (s.cfg.shiftUsesCopy = false → 0x80#8 = s.reg 0) ∧
    s.cfg.shiftUsesCopy = true ∧ { s.cfg with shiftUsesCopy := false }.shiftUsesCopy = false := by decide

theorem witness_IndexAddWrapsAndSetsOverflow : let s := withRegs [(1, 1), (2, 2)] { base with i := 0xFFE#16 }
    s.cfg.indexAddSetsVF = true ∧ s.i.toNat + (s.reg 1).toNat ≤ 0xFFF ∧ 0xFFF < s.i.toNat + (s.reg 2).toNat ∧
    { s.cfg with indexAddSetsVF := false }.indexAddSetsVF = false := by decide

theorem witness_RegisterDumpAndLoad : base.cfg.dumpLoadIncrementsIndex = false ∧
    { base.cfg with dumpLoadIncrementsIndex := true }.dumpLoadIncrementsIndex = true ∧
    0x310 < 4096 ∧ ∀ k, k < 16 → 0x310 ≠ ({ base with i := 0x300#16 } : State).ea k := by decide

theorem witness_DumpThenLoadRestoresRegisters : ∃ t, exec (.dump 3) base = .next t ∧
    ∃ u : State, u.mem = t.mem ∧ u.i = base.i ∧ u ≠ t :=
  ⟨_, rfl, { base with mem := base.mem.store base.i.toNat base.v.toList, dt := 9 }, rfl, rfl,
    fun h => absurd (congrArg State.dt h) (by decide)⟩

theorem witness_grid_shape : base.cfg.wf ∧ Grid.hasShape base.fb base.cfg.width base.cfg.height := by decide

/-- One pixel at the last cell, where a set cell stands or not. -/
theorem witness_DrawFlipsCellsUnderSetBits :
    let s := withRegs [(0, 63), (1, 31)] { base with i := 0x300#16, mem := [(0x300, 0x80#8)], fb := base.fb.flip 31 63 }
    s.drawnBit 0 1 1 31 63 = true ∧ s.fb.cell 31 63 = true ∧ base.fb.cell 31 63 = false ∧
    s.drawnBit 0 1 0 31 63 = false ∧ s.drawnBit 0 1 1 31 62 = false := by decide

theorem witness_KeySkipsTestSelectedKey : let s := withKeys [15] (withRegs [(0, 0x1F), (1, 0xF0)] base)
    (s.reg 0).toNat % 16 = (15 : Key).val ∧ s.key 15 = true ∧ (s.reg 1).toNat % 16 = (0 : Key).val ∧
    s.key 0 = false := by decide

theorem witness_KeyWaitReportsAndClearsLeastKey : let s := withKeys [15] base
    s.key 15 = true ∧ ∀ j, j < 15 → s.key j = false := by decide

theorem witness_KeyWaitRewindsWithoutKey : let s := { base with pc := 0xFFE#16, mem := [(0xFFE, 0xF3#8), (0xFFF, 0x0A#8)] }
    (∀ k, base.key k = false) ∧ 2 ≤ ({ base with pc := 2#16 } : State).pc.toNat ∧
    s.fetchFails = false ∧ s.pc.toNat < 4096 ∧ decode s.wordAtPc = .ldVxK 3 ∧ ∀ k, (beginStep s).key k = false := by
  decide

theorem witness_ConsumeChangedReturnsAndClears : let s := { base with changed := true }
    (∃ t, exec .cls s = .next t) ∧ (∃ t, step s = .next t) ∧ HostCall.consumeChanged ∉ s.nextInputs.calls ∧
    s.changed = true ∧ ∃ t, hostSetKey 0 false s = .next t :=
  ⟨⟨_, rfl⟩, ⟨_, rfl⟩, by decide, rfl, _, rfl⟩

theorem witness_ScheduledCallsActLikeTransactions : ∃ t, hostSetKey (15 : Key).val true base = .next t := ⟨_, rfl⟩

theorem witness_ResetPlacesFontAndRom : base.cfg.wf ∧ defaultFont.length = 80 ∧
    (List.replicate 3584 0x12#8).length ≤ 3584 ∧ ([] : List Byte).length ≤ 3584 :=
  ⟨by decide, rfl, by rw [List.length_replicate], Nat.zero_le _⟩

theorem witness_ResetRefusesBrokenContract : (List.replicate 79 0x00#8).length ≠ 80 ∧
    3584 < (List.replicate 3585 0x00#8).length ∧ ¬ ({ base.cfg with height := 0 } : Configuration).wf :=
  ⟨by decide, by rw [List.length_replicate]; decide, by decide⟩

end Sys2Proof.Tests
end

/-! No operation of the machine but reset writes the configuration (10_state.md rule R22). -/

namespace Sys2Proof.Machine

/-! ## The call stack's two outcomes -/

/-- `Push` fails on a full stack and else stores the value at `SP` and advances `SP`. -/
theorem push_cases (v : Word) (s : State) :
    (s.sp.val = 16 ∧ push v s = .error .stackOverflow) ∨
    ∃ h : s.sp.val < 16,
      push v s = .ok { s with stack := s.stack.set s.sp.val v h, sp := ⟨s.sp.val + 1, Nat.succ_lt_succ h⟩ } := by
  rcases Nat.lt_or_ge s.sp.val 16 with h | h
  · exact .inr ⟨h, push_room v s h⟩
  · have hfull : s.sp.val = 16 := by omega
    exact .inl ⟨hfull, push_full v s hfull⟩

/-- `Pop` fails on an empty stack and else gives the entry below `SP` and lowers `SP` to it. -/
theorem pop_cases (s : State) :
    (s.sp.val = 0 ∧ pop s = .error .stackUnderflow) ∨
    ∃ k : Fin 16, s.sp.val = k.val + 1 ∧ pop s = .ok (s.stack[k], { s with sp := k.castSucc }) := by
  rcases Nat.eq_zero_or_pos s.sp.val with h | h
  · exact .inl ⟨h, pop_empty s h⟩
  · have hk : s.sp.val = s.sp.val - 1 + 1 := by omega
    exact .inr ⟨⟨s.sp.val - 1, by omega⟩, hk, pop_entry s ⟨s.sp.val - 1, by omega⟩ hk⟩

/-! ## The operations that branch -/

@[simp] theorem skipIf_cfg (c : Bool) (s : State) : (skipIf c s).cfg = s.cfg := by
  rw [skipIf_frame]

theorem execRet_next_cfg (s : State) : ∃ t, execRet s = .next t ∧ t.cfg = s.cfg := by
  refine ⟨_, rfl, ?_⟩
  rcases pop_cases s with ⟨_, e⟩ | ⟨_, _, e⟩
  · rw [e]; rfl
  · rw [e]; rfl

theorem execCall_next_cfg (nnn : Addr) (s : State) : ∃ t, execCall nnn s = .next t ∧ t.cfg = s.cfg := by
  refine ⟨_, rfl, ?_⟩
  rcases push_cases s.pc s with ⟨_, e⟩ | ⟨_, e⟩
  · rw [e]; rfl
  · rw [e]; rfl

theorem execAddI_next_cfg (x : Reg) (s : State) : ∃ t, execAddI x s = .next t ∧ t.cfg = s.cfg := by
  refine ⟨_, rfl, ?_⟩
  cases s.cfg.indexAddSetsVF <;> rfl

theorem execLdVxK_next_cfg (x : Reg) (s : State) : ∃ t, execLdVxK x s = .next t ∧ t.cfg = s.cfg := by
  refine ⟨_, rfl, ?_⟩
  cases s.leastKey <;> rfl

/-! ## Every instruction, every step and every reset -/

/-- Every instruction completes with the configuration it found. The instructions without a branch answer one chain of
register, `PC`, `I`, timer, memory or grid writes; the others have a lemma above. -/
theorem exec_next_cfg (i : Instr) (s : State) : ∃ t, exec i s = .next t ∧ t.cfg = s.cfg :=
  match i with
  | .ret => execRet_next_cfg s
  | .call nnn => execCall_next_cfg nnn s
  | .addI x => execAddI_next_cfg x s
  | .ldVxK x => execLdVxK_next_cfg x s
  | .seImm _ _ | .sneImm _ _ | .seReg _ _ | .sneReg _ _ | .skp _ | .sknp _ => ⟨_, rfl, skipIf_cfg _ s⟩
  | .cls | .jp _ | .ldImm _ _ | .addImm _ _ | .ldReg _ _ | .orReg _ _ | .andReg _ _ | .xorReg _ _ => ⟨_, rfl, rfl⟩
  | .addReg _ _ | .subReg _ _ | .shr _ _ | .subnReg _ _ | .shl _ _ | .ldI _ | .jpV0 _ | .rnd _ _ => ⟨_, rfl, rfl⟩
  | .drw _ _ _ | .ldVxDt _ | .ldDtVx _ | .ldStVx _ | .ldF _ | .ldB _ | .dump _ | .load _ | .nop _ => ⟨_, rfl, rfl⟩

theorem exec_cfg {i : Instr} {s t : State} (h : exec i s = .next t) : t.cfg = s.cfg := by
  obtain ⟨u, hu, hcfg⟩ := exec_next_cfg i s
  cases hu.symm.trans h
  exact hcfg

/-- Both ways a step can end, a failing fetch and an executed instruction, keep the configuration. -/
theorem step_cfg {s t : State} (h : step s = .next t) : t.cfg = s.cfg := by
  rcases step_cases s with ⟨_, e⟩ | ⟨_, e⟩
  · cases e.symm.trans h
    rfl
  · exact (exec_cfg (e.symm.trans h)).trans (by simp)

/-- A reset that succeeds is one inside the host's contract, and gives the initial state with the font and the ROM. -/
theorem hostReset_next {cfg : Configuration} {font rom : List Byte} {now : Nat} {t : State}
    (h : hostReset cfg font rom now = .next t) :
    font.length = fontBytes ∧ rom.length ≤ maxRomBytes ∧ cfg.wf ∧
      t = State.initial cfg ((Memory.store [] fontBase font).store progBase rom) now := by
  unfold hostReset at h
  split_ifs at h with hfont hrom hwf
  cases h
  exact ⟨not_not.mp hfont, not_lt.mp hrom, hwf, rfl⟩

theorem hostSetKey_cfg {k : Nat} {b : Bool} {s t : State} (h : hostSetKey k b s = .next t) : t.cfg = s.cfg := by
  unfold hostSetKey at h
  split_ifs at h
  cases h
  exact hostCalls_cfg s _

/-- Settles O16: a reset stores the configuration it is given; host calls, steps and instructions keep it. -/
theorem configurationNeverChanges : Obligations.ConfigurationNeverChanges := by
  refine ⟨fun cfg font rom now t h => ?reset, fun s t => step_cfg, fun s t k b => hostSetKey_cfg,
    fun s => hostCalls_cfg s _, fun i s t => exec_cfg⟩
  case reset =>
    obtain ⟨-, -, -, rfl⟩ := hostReset_next h
    rfl

end Sys2Proof.Machine

/-! One stored byte as later reads and fetches see it (20_memory.md rules R30, R36, R37). -/

namespace Sys2Proof.Machine

/-! ## The bytes of a fetched word -/

@[simp] theorem hiByte_wordOfBytes (hi lo : Byte) : hiByte (wordOfBytes hi lo) = hi :=
  BitVec.extractLsb'_append_eq_left

@[simp] theorem loByte_wordOfBytes (hi lo : Byte) : loByte (wordOfBytes hi lo) = lo :=
  BitVec.extractLsb'_append_eq_right

@[simp] theorem hiByte_wordAtPc (s : State) : hiByte s.wordAtPc = s.byteAt s.pc.toNat :=
  hiByte_wordOfBytes _ _

@[simp] theorem loByte_wordAtPc (s : State) : loByte s.wordAtPc = s.byteAt (s.pc.toNat + 1) :=
  loByte_wordOfBytes _ _

/-! ## `MemRead` after `MemWrite` of one byte -/

/-- `MemRead` sees an address through its residue only, so every alias of the stored address reads as the new byte. -/
theorem byteAt_store_byte_of_mod_eq (s : State) {a a' : Nat} (v : Byte) (h : a' % memSize = a % memSize) :
    ({ s with mem := s.mem.store a [v] } : State).byteAt a' = v := by
  rw [State.byteAt, h]
  exact Memory.read_write_self s.mem (a % memSize) v

theorem byteAt_store_byte_of_mod_ne (s : State) {a a' : Nat} (v : Byte) (h : a' % memSize ≠ a % memSize) :
    ({ s with mem := s.mem.store a [v] } : State).byteAt a' = s.byteAt a' :=
  Memory.read_write_of_ne s.mem v h

/-- Settles O23: the stored byte is read at every alias of its address, so by a fetch of either byte of the word at
`PC`; the other addresses keep their bytes, and a store keeps memory canonical. -/
theorem memWriteSetsOneByte : Obligations.MemWriteSetsOneByte := by
  intro s a v
  refine ⟨?written, fun a' => ?others, fun hpc => ?fetchedHigh, fun hpc => ?fetchedLow, fun hwf => ?canonical⟩
  case written => exact byteAt_store_byte_of_mod_eq s v rfl
  case others => exact byteAt_store_byte_of_mod_ne s v
  case fetchedHigh => exact (hiByte_wordAtPc _).trans (byteAt_store_byte_of_mod_eq s v hpc)
  case fetchedLow => exact (loByte_wordAtPc _).trans (byteAt_store_byte_of_mod_eq s v hpc)
  case canonical => exact Memory.store_wf hwf a [v]

end Sys2Proof.Machine

/-! `6xnn` and `7xnn`: the fields of a word in format XB, and instructions that write one register (30_encoding.md
rule R49; 41_register_alu.md rules R73, R74). -/

namespace Sys2Proof

/-! ## The fields of a word in format XB -/

/-- The statements' spelling of a word in format XB is the encoder's. -/
theorem append_eq_formatXB (op : BitVec 4) (x : Reg) (nn : Byte) :
    op ++ BitVec.ofNat 4 x.val ++ nn = formatXB op x nn := by
  have hx : BitVec.ofNat 4 x.val = nibble x := BitVec.ofFin_eq_ofNat.symm
  rw [formatXB, hx]

@[simp] theorem n1_formatXB (op : BitVec 4) (x : Reg) (nn : Byte) : n1 (formatXB op x nn) = op.toNat := by
  have hop : (formatXB op x nn).extractLsb' 12 4 = op := by
    rw [formatXB, BitVec.extractLsb'_append_eq_of_le (by decide)]
    exact BitVec.extractLsb'_append_eq_left
  rw [n1, hop]

@[simp] theorem fieldX_formatXB (op : BitVec 4) (x : Reg) (nn : Byte) : fieldX (formatXB op x nn) = x := by
  have hx : (formatXB op x nn).extractLsb' 8 4 = nibble x := by
    rw [formatXB, BitVec.extractLsb'_append_eq_of_le (by decide)]
    exact BitVec.extractLsb'_append_eq_right
  rw [fieldX, hx]
  rfl

@[simp] theorem fieldNN_formatXB (op : BitVec 4) (x : Reg) (nn : Byte) : fieldNN (formatXB op x nn) = nn :=
  BitVec.extractLsb'_append_eq_right

/-! ## The words of `6xnn` and `7xnn`, decoded -/

theorem decode_ldImm_word (x : Reg) (nn : Byte) : decode (0x6#4 ++ BitVec.ofNat 4 x.val ++ nn) = .ldImm x nn := by
  rw [append_eq_formatXB]
  simp [decode]

theorem decode_addImm_word (x : Reg) (nn : Byte) : decode (0x7#4 ++ BitVec.ofNat 4 x.val ++ nn) = .addImm x nn := by
  rw [append_eq_formatXB]
  simp [decode]

end Sys2Proof

namespace Sys2Proof.Machine

/-! ## Instructions that write one register -/

/-- An instruction that answers one register write changes that register only. -/
theorem writesReg_of_exec {i : Instr} {s : State} {x : Reg} {b : Byte} (h : exec i s = .next (s.setReg x b)) :
    WritesReg i s x b :=
  ⟨s.setReg x b, h, reg_setReg_self s x b, fun _ => reg_setReg_of_ne s b, setReg_frame s x b, sameBytes_of_mem_eq rfl⟩

/-- The model's byte addition is the sum modulo 256. -/
theorem ofNat_sum_mod_eq_add (a b : Byte) : BitVec.ofNat 8 ((a.toNat + b.toNat) % 256) = a + b :=
  BitVec.eq_of_toNat_eq (by rw [BitVec.toNat_ofNat, BitVec.toNat_add, Nat.mod_mod])

/-- Settles O31: the word's fields are its operands, and the instruction is one register write of the immediate. -/
theorem loadImmediateWritesRegister : Obligations.LoadImmediateWritesRegister :=
  fun _ x nn => ⟨decode_ldImm_word x nn, writesReg_of_exec rfl⟩

/-- Settles O32: the word's fields are its operands, and the instruction is one register write of the wrapped sum, with
no flag write after it. -/
theorem addImmediateWrapsWithoutFlag : Obligations.AddImmediateWrapsWithoutFlag := by
  intro s x nn
  rw [ofNat_sum_mod_eq_add]
  exact ⟨decode_addImm_word x nn, writesReg_of_exec rfl⟩

end Sys2Proof.Machine

/-! The clear, the snapshot and the changed flag (43_random_draw.md rules R92, R93, R97, R98): an instruction takes the
flag along or sets it, so only the host clears it and no instruction's other effects depend on it. -/

namespace Sys2Proof.Machine

/-! ## Clearing and snapshots -/

/-- Settles O44: `00E0` is `FbClear`, whose grid is the blank one, and a snapshot shows that grid. -/
theorem clearBlanksGridAndMarksChanged : Obligations.ClearBlanksGridAndMarksChanged := by
  intro s
  have hcells : ∀ r c, (fbClear s).fb.cell r c = false := Grid.cell_blank s.cfg.width s.cfg.height
  have hshape : (fbClear s).fb.hasShape s.cfg.width s.cfg.height := Grid.blank_hasShape s.cfg.width s.cfg.height
  exact ⟨fbClear s, rfl, rfl, hcells, hshape, fbClear_changed s, rfl, rfl, rfl, rfl, sameBytes_of_mem_eq rfl⟩

/-- Settles O53: a snapshot's fields are the state's, and the call leaves the key flags and the changed flag alone. -/
theorem snapshotShowsEveryCell : Obligations.SnapshotShowsEveryCell :=
  fun _ => ⟨rfl, rfl, fun _ _ => rfl, rfl⟩

/-! ## The changed flag under the host's calls -/

/-- Calls without a `consumeChanged` leave the changed flag alone. -/
theorem foldl_changedAfter_of_notMem {cs : List HostCall} (h : HostCall.consumeChanged ∉ cs) (c : Bool) :
    cs.foldl changedAfter c = c := by
  induction cs with
  | nil => rfl
  | cons call cs ih =>
    have hcs : cs.foldl changedAfter c = c := ih fun hmem => h (List.mem_cons_of_mem call hmem)
    cases call with
    | setKey k b => exact hcs
    | snapshot => exact hcs
    | consumeChanged => exact absurd List.mem_cons_self h

@[simp] theorem beginStep_changed (s : State) :
    (beginStep s).changed = s.nextInputs.calls.foldl changedAfter s.changed := rfl

/-- A key call that succeeds has an index below 16 and does what the scheduled call does. -/
theorem hostSetKey_next {k : Nat} {b : Bool} {s t : State} (h : hostSetKey k b s = .next t) :
    ∃ hk : k < 16, t = hostCalls [.setKey ⟨k, hk⟩ b] s := by
  unfold hostSetKey at h
  split_ifs at h with hk
  cases h
  exact ⟨hk, rfl⟩

/-! ## The operations that branch, with another changed flag -/

theorem skipIf_withChanged (c : Bool) (s : State) (b : Bool) :
    skipIf c { s with changed := b } = { skipIf c s with changed := b } := by
  have hfails : State.fetchFails { s with changed := b } = s.fetchFails := rfl
  cases c with
  | false => rfl
  | true =>
    rw [skipIf_true, skipIf_true, skip, skip, fetchAdvance, fetchAdvance, hfails]
    cases s.fetchFails <;> rfl

theorem push_withChanged (v : Word) (s : State) (b : Bool) :
    push v { s with changed := b } = (push v s).map fun t => { t with changed := b } := by
  unfold push
  split <;> rfl

theorem pop_withChanged (s : State) (b : Bool) :
    pop { s with changed := b } = (pop s).map fun r => (r.1, { r.2 with changed := b }) := by
  unfold pop
  split <;> rfl

/-! ## Every instruction -/

/-- `i` completes at `s`, does not clear the changed flag, and with another flag does the same but for the flag. -/
def LeavesChangedToHost (i : Instr) (s : State) : Prop :=
  ∃ t, exec i s = .next t ∧ (s.changed = true → t.changed = true) ∧
    ∀ b, ∃ c, exec i { s with changed := b } = .next { t with changed := c }

/-- An instruction that takes any changed flag along leaves it to the host: it takes along the one it found, too. -/
theorem leavesChangedToHost_of_carried {i : Instr} {s t : State} (h : exec i s = .next t)
    (hother : ∀ b, exec i { s with changed := b } = .next { t with changed := b }) : LeavesChangedToHost i s := by
  have hsame : t = { t with changed := s.changed } := Host.Outcome.next.inj (h.symm.trans (hother s.changed))
  exact ⟨t, h, fun hs => (congrArg State.changed hsame).trans hs, fun b => ⟨b, hother b⟩⟩

/-- An instruction that answers `skipIf` on a condition the changed flag has no part in takes the flag along. -/
theorem leavesChangedToHost_of_skipIf {i : Instr} {s : State} (c : Bool)
    (h : ∀ b, exec i { s with changed := b } = .next (skipIf c { s with changed := b })) : LeavesChangedToHost i s :=
  leavesChangedToHost_of_carried (h s.changed) fun b => by rw [h b, skipIf_withChanged]

theorem execRet_leavesChangedToHost (s : State) : LeavesChangedToHost .ret s := by
  refine leavesChangedToHost_of_carried rfl fun b => ?_
  rw [exec, execRet, pop_withChanged]
  cases pop s <;> rfl

theorem execCall_leavesChangedToHost (nnn : Addr) (s : State) : LeavesChangedToHost (.call nnn) s := by
  refine leavesChangedToHost_of_carried rfl fun b => ?_
  rw [exec, execCall, push_withChanged]
  cases push s.pc s <;> rfl

theorem execAddI_leavesChangedToHost (x : Reg) (s : State) : LeavesChangedToHost (.addI x) s := by
  refine leavesChangedToHost_of_carried rfl fun b => ?_
  rw [exec, execAddI]
  cases s.cfg.indexAddSetsVF <;> rfl

theorem execLdVxK_leavesChangedToHost (x : Reg) (s : State) : LeavesChangedToHost (.ldVxK x) s := by
  have hleast : ∀ b, State.leastKey { s with changed := b } = s.leastKey := fun _ => rfl
  refine leavesChangedToHost_of_carried rfl fun b => ?_
  rw [exec, execLdVxK, hleast]
  cases s.leastKey <;> rfl

/-- A clear sets the changed flag whatever it was. -/
theorem execCls_leavesChangedToHost (s : State) : LeavesChangedToHost .cls s :=
  ⟨fbClear s, rfl, fun _ => fbClear_changed s, fun _ => ⟨true, rfl⟩⟩

/-- A draw joins the changed flag with whether a cell flipped, which the sprite and the grid alone decide. -/
theorem execDrw_leavesChangedToHost (x y : Reg) (n : Fin 16) (s : State) : LeavesChangedToHost (.drw x y n) s :=
  ⟨_, rfl, fun hs => Bool.or_eq_true_iff.mpr (.inl hs), fun _ => ⟨_, rfl⟩⟩

/-- Every instruction leaves the changed flag to the host. The two that write the grid, and those that branch, have a
lemma above; the others answer one chain of register, `PC`, `I`, timer or memory writes. -/
theorem exec_leavesChangedToHost (i : Instr) (s : State) : LeavesChangedToHost i s :=
  match i with
  | .cls => execCls_leavesChangedToHost s
  | .drw x y n => execDrw_leavesChangedToHost x y n s
  | .ret => execRet_leavesChangedToHost s
  | .call nnn => execCall_leavesChangedToHost nnn s
  | .addI x => execAddI_leavesChangedToHost x s
  | .ldVxK x => execLdVxK_leavesChangedToHost x s
  | .seImm x nn => leavesChangedToHost_of_skipIf (s.reg x == nn) fun _ => rfl
  | .sneImm x nn => leavesChangedToHost_of_skipIf (s.reg x != nn) fun _ => rfl
  | .seReg x y => leavesChangedToHost_of_skipIf (s.reg x == s.reg y) fun _ => rfl
  | .sneReg x y => leavesChangedToHost_of_skipIf (s.reg x != s.reg y) fun _ => rfl
  | .skp x => leavesChangedToHost_of_skipIf (s.key (s.keyOf x)) fun _ => rfl
  | .sknp x => leavesChangedToHost_of_skipIf (!s.key (s.keyOf x)) fun _ => rfl
  | .jp _ | .ldImm _ _ | .addImm _ _ | .ldReg _ _ | .orReg _ _ | .andReg _ _ | .xorReg _ _ | .addReg _ _ =>
    leavesChangedToHost_of_carried rfl fun _ => rfl
  | .subReg _ _ | .shr _ _ | .subnReg _ _ | .shl _ _ | .ldI _ | .jpV0 _ | .rnd _ _ | .ldVxDt _ | .ldDtVx _ =>
    leavesChangedToHost_of_carried rfl fun _ => rfl
  | .ldStVx _ | .ldF _ | .ldB _ | .dump _ | .load _ | .nop _ => leavesChangedToHost_of_carried rfl fun _ => rfl

theorem exec_changed {i : Instr} {s t : State} (h : exec i s = .next t) :
    (s.changed = true → t.changed = true) ∧
      ∀ b, ∃ c, exec i { s with changed := b } = .next { t with changed := c } := by
  obtain ⟨u, hu, hkept, hother⟩ := exec_leavesChangedToHost i s
  cases hu.symm.trans h
  exact ⟨hkept, hother⟩

/-- Only a `consumeChanged` among the host's calls can clear the flag in a step: neither a failing fetch nor the
executed instruction does. -/
theorem step_keeps_changed {s t : State} (h : step s = .next t) (hcalls : HostCall.consumeChanged ∉ s.nextInputs.calls)
    (hs : s.changed = true) : t.changed = true := by
  have hbegin : (beginStep s).changed = true := by rw [beginStep_changed, foldl_changedAfter_of_notMem hcalls, hs]
  rcases step_cases s with ⟨_, e⟩ | ⟨_, e⟩
  · cases e.symm.trans h
    exact hbegin
  · exact (exec_changed (e.symm.trans h)).1 hbegin

/-- Settles O52: the host's call returns and clears the flag; key calls, steps without that call and instructions keep
a set flag, and instructions do the same with either. -/
theorem consumeChangedReturnsAndClears : Obligations.ConsumeChangedReturnsAndClears := by
  refine ⟨fun s => ⟨rfl, rfl, rfl⟩, fun s t k b h => ?setKey, fun s t => step_keeps_changed, fun i s t => exec_changed⟩
  case setKey =>
    obtain ⟨_, rfl⟩ := hostSetKey_next h
    rfl

end Sys2Proof.Machine

/-! The decoder and the encoder are inverse to each other, and a word is selected by the row of the instruction it
decodes to and by no other (30_encoding.md rules R49 to R54). -/

namespace Sys2Proof

/-! ## The fields of a word in formats A and XY -/

@[simp] theorem n1_formatA (op : BitVec 4) (nnn : Addr) : n1 (formatA op nnn) = op.toNat :=
  congrArg BitVec.toNat BitVec.extractLsb'_append_eq_left

@[simp] theorem fieldNNN_formatA (op : BitVec 4) (nnn : Addr) : fieldNNN (formatA op nnn) = nnn :=
  BitVec.extractLsb'_append_eq_right

/-- Format XY is format XB with the byte made of its last two fields. -/
theorem formatXY_eq_formatXB (op : BitVec 4) (x y : Reg) (n : BitVec 4) :
    formatXY op x y n = formatXB op x (nibble y ++ n) :=
  BitVec.append_assoc

@[simp] theorem n1_formatXY (op : BitVec 4) (x y : Reg) (n : BitVec 4) : n1 (formatXY op x y n) = op.toNat := by
  rw [formatXY_eq_formatXB, n1_formatXB]

@[simp] theorem fieldX_formatXY (op : BitVec 4) (x y : Reg) (n : BitVec 4) : fieldX (formatXY op x y n) = x := by
  rw [formatXY_eq_formatXB, fieldX_formatXB]

@[simp] theorem fieldY_formatXY (op : BitVec 4) (x y : Reg) (n : BitVec 4) : fieldY (formatXY op x y n) = y := by
  have hy : (formatXY op x y n).extractLsb' 4 4 = nibble y := by
    rw [formatXY, BitVec.extractLsb'_append_eq_of_le (by decide)]
    exact BitVec.extractLsb'_append_eq_right
  rw [fieldY, hy]
  rfl

@[simp] theorem fieldN_formatXY (op : BitVec 4) (x y : Reg) (n : BitVec 4) : fieldN (formatXY op x y n) = n.toFin :=
  congrArg BitVec.toFin BitVec.extractLsb'_append_eq_right

@[simp] theorem toFin_nibble (k : Fin 16) : (nibble k).toFin = k := rfl

/-! ## A word is made of its fields -/

theorem n1_lt (w : Word) : n1 w < 16 := (w.extractLsb' 12 4).isLt

theorem formatA_fields {w : Word} {op : BitVec 4} (h : n1 w = op.toNat) : formatA op (fieldNNN w) = w := by
  have hop : op = w.extractLsb' 12 4 := BitVec.eq_of_toNat_eq h.symm
  rw [hop]
  exact BitVec.extractLsb'_append_extractLsb'

theorem formatXB_fields {w : Word} {op : BitVec 4} {nn : Byte} (h : n1 w = op.toNat) (hnn : fieldNN w = nn) :
    formatXB op (fieldX w) nn = w := by
  have hop : op = w.extractLsb' 12 4 := BitVec.eq_of_toNat_eq h.symm
  have hhi : w.extractLsb' 12 4 ++ nibble (fieldX w) = w.extractLsb' 8 8 :=
    BitVec.extractLsb'_append_extractLsb'_eq_extractLsb' rfl
  rw [formatXB, hop, ← hnn, hhi]
  exact BitVec.extractLsb'_append_extractLsb'

theorem formatXY_fields {w : Word} {op : BitVec 4} {n : BitVec 4} (h : n1 w = op.toNat) (hn : fieldN w = n.toFin) :
    formatXY op (fieldX w) (fieldY w) n = w := by
  have hlow : fieldNN w = nibble (fieldY w) ++ n := by
    have : n = w.extractLsb' 0 4 := congrArg BitVec.ofFin hn.symm
    rw [this]
    exact (BitVec.extractLsb'_append_extractLsb'_eq_extractLsb' (x := w) (start₂ := 4) (len₁ := 4) rfl).symm
  rw [formatXY_eq_formatXB, formatXB_fields h hlow]

/-! ## Encoding what was decoded -/

theorem encode_decodeZ (w : Word) : encode (decodeZ w) = w := by
  unfold decodeZ
  split_ifs with hcls hret
  · exact hcls.symm
  · exact hret.symm
  · rfl

theorem encode_decode5 {w : Word} (h : n1 w = 0x5) : encode (decode5 w) = w := by
  unfold decode5
  split_ifs with hn
  · exact formatXY_fields h hn
  · rfl

theorem encode_decode8 {w : Word} (h : n1 w = 0x8) : encode (decode8 w) = w := by
  unfold decode8
  split
  case h_10 => rfl
  all_goals
    next hn => exact formatXY_fields h (Fin.ext hn)

theorem encode_decode9 {w : Word} (h : n1 w = 0x9) : encode (decode9 w) = w := by
  unfold decode9
  split_ifs with hn
  · exact formatXY_fields h hn
  · rfl

theorem encode_decodeE {w : Word} (h : n1 w = 0xE) : encode (decodeE w) = w := by
  unfold decodeE
  split
  case h_3 => rfl
  all_goals
    next hnn => exact formatXB_fields h (BitVec.eq_of_toNat_eq hnn)

theorem encode_decodeF {w : Word} (h : n1 w = 0xF) : encode (decodeF w) = w := by
  unfold decodeF
  split
  case h_10 => rfl
  all_goals
    next hnn => exact formatXB_fields h (BitVec.eq_of_toNat_eq hnn)

/-- The decoder reads every bit of a word into a field or a fixed pattern, which the encoder writes back: major opcode
by major opcode, in rising order. -/
theorem encode_decode (w : Word) : encode (decode w) = w := by
  have hlt := n1_lt w
  interval_cases h : n1 w <;> simp only [decode, h]
  · exact encode_decodeZ w
  · exact formatA_fields h
  · exact formatA_fields h
  · exact formatXB_fields h rfl
  · exact formatXB_fields h rfl
  · exact encode_decode5 h
  · exact formatXB_fields h rfl
  · exact formatXB_fields h rfl
  · exact encode_decode8 h
  · exact encode_decode9 h
  · exact formatA_fields h
  · exact formatA_fields h
  · exact formatXB_fields h rfl
  · exact formatXY_fields h rfl
  · exact encode_decodeE h
  · exact encode_decodeF h

/-! ## The row that selects a word -/

open Laws.FixedBits in
/-- Every instruction has the bits of its row; the no-operation those of none. -/
theorem fixedBits (i : Instr) : Statement i :=
  match i with
  | .cls => cls
  | .ret => ret
  | .jp nnn => jp nnn
  | .call nnn => call nnn
  | .seImm x nn => seImm x nn
  | .sneImm x nn => sneImm x nn
  | .seReg x y => seReg x y
  | .ldImm x nn => ldImm x nn
  | .addImm x nn => addImm x nn
  | .ldReg x y => ldReg x y
  | .orReg x y => orReg x y
  | .andReg x y => andReg x y
  | .xorReg x y => xorReg x y
  | .addReg x y => addReg x y
  | .subReg x y => subReg x y
  | .shr x y => shr x y
  | .subnReg x y => subnReg x y
  | .shl x y => shl x y
  | .sneReg x y => sneReg x y
  | .ldI nnn => ldI nnn
  | .jpV0 nnn => jpV0 nnn
  | .rnd x nn => rnd x nn
  | .drw x y n => drw x y n
  | .skp x => skp x
  | .sknp x => sknp x
  | .ldVxDt x => ldVxDt x
  | .ldVxK x => ldVxK x
  | .ldDtVx x => ldDtVx x
  | .ldStVx x => ldStVx x
  | .addI x => addI x
  | .ldF x => ldF x
  | .ldB x => ldB x
  | .dump x => dump x
  | .load x => load x
  | .nop w => nop w

theorem eq_of_mask_ones {w m : Word} (h : w &&& 0xFFFF#16 = m) : w = m := by
  rw [← h]
  exact BitVec.and_allOnes.symm

/-- A mask that fixes the major opcode fixes it to that of the match value. -/
theorem n1_of_masked {w mask m : Word} (h : w &&& mask = m) (hmask : mask.extractLsb' 12 4 = 0xF#4) : n1 w = n1 m := by
  rw [← h, n1, n1, BitVec.extractLsb'_and, hmask]
  exact congrArg BitVec.toNat BitVec.and_allOnes.symm

theorem fieldN_of_masked {w mask m : Word} (h : w &&& mask = m) (hmask : mask.extractLsb' 0 4 = 0xF#4) :
    fieldN w = fieldN m := by
  rw [← h, fieldN, fieldN, BitVec.extractLsb'_and, hmask]
  exact congrArg BitVec.toFin BitVec.and_allOnes.symm

theorem fieldNN_of_masked {w mask m : Word} (h : w &&& mask = m) (hmask : mask.extractLsb' 0 8 = 0xFF#8) :
    fieldNN w = fieldNN m := by
  rw [← h, fieldNN, fieldNN, BitVec.extractLsb'_and, hmask]
  exact BitVec.and_allOnes.symm

/-- What a row's mask fixes: the major opcode, and with it every field the decoder then selects by. -/
abbrev OpcodeRow.FixesSelectors (r : OpcodeRow) : Prop :=
  r.1.extractLsb' 12 4 = 0xF#4 ∧ (n1 r.2 = 0x0 → r.1 = 0xFFFF#16) ∧
    (n1 r.2 ∈ [0x5, 0x8, 0x9] → r.1.extractLsb' 0 4 = 0xF#4) ∧ (n1 r.2 ∈ [0xE, 0xF] → r.1.extractLsb' 0 8 = 0xFF#8)

theorem fixesSelectors_of_mem {r : OpcodeRow} (hr : r ∈ opcodeMap) : r.FixesSelectors := by
  fin_cases hr <;> decide

/-- The match value of a row, as a word, decodes to the row's instruction. -/
theorem row_decode_matchValue {r : OpcodeRow} (hr : r ∈ opcodeMap) : Laws.FixedBits.row (decode r.2) = some r := by
  fin_cases hr <;> rfl

/-- The row of a decoded word depends on the word through the fields the decoder selects by: major opcode by major
opcode, in rising order. -/
theorem row_decode_congr {w m : Word} (hn1 : n1 w = n1 m) (hz : n1 m = 0x0 → w = m)
    (hn : n1 m ∈ [0x5, 0x8, 0x9] → fieldN w = fieldN m) (hnn : n1 m ∈ [0xE, 0xF] → fieldNN w = fieldNN m) :
    Laws.FixedBits.row (decode w) = Laws.FixedBits.row (decode m) := by
  have hlt := n1_lt m
  interval_cases h : n1 m <;> simp only [decode, hn1, h]
  · rw [hz rfl]
  · rfl
  · rfl
  · rfl
  · rfl
  · rw [decode5, decode5, hn (by decide)]; split_ifs <;> rfl
  · rfl
  · rfl
  · rw [decode8, decode8, hn (by decide)]; split <;> rfl
  · rw [decode9, decode9, hn (by decide)]; split_ifs <;> rfl
  · rfl
  · rfl
  · rfl
  · rfl
  · rw [decodeE, decodeE, hnn (by decide)]; split <;> rfl
  · rw [decodeF, decodeF, hnn (by decide)]; split <;> rfl

/-- A row of the map that selects a word is the row of the instruction the word decodes to. -/
theorem row_decode_of_selects {w : Word} {r : OpcodeRow} (hr : r ∈ opcodeMap) (hsel : r.selects w = true) :
    Laws.FixedBits.row (decode w) = some r := by
  obtain ⟨hmajor, hz, hn, hnn⟩ := fixesSelectors_of_mem hr
  have hmask : w &&& r.1 = r.2 := by simpa [OpcodeRow.selects] using hsel
  rw [← row_decode_matchValue hr]
  exact row_decode_congr (n1_of_masked hmask hmajor) (fun h => eq_of_mask_ones (hz h ▸ hmask))
    (fun h => fieldN_of_masked hmask (hn h)) (fun h => fieldNN_of_masked hmask (hnn h))

/-! ## The no-operation -/

theorem unrecognised_iff (w : Word) : unrecognised w = true ↔ ∀ r ∈ opcodeMap, r.selects w = false := by
  simp [unrecognised, List.all_eq_true]

theorem row_eq_none_iff (i : Instr) : Laws.FixedBits.row i = none ↔ ∃ w, i = .nop w := by
  cases i <;> simp [Laws.FixedBits.row]

theorem decode_eq_nop_iff_row {w : Word} : decode w = .nop w ↔ Laws.FixedBits.row (decode w) = none := by
  refine ⟨fun h => by rw [h]; rfl, fun h => ?_⟩
  obtain ⟨v, hv⟩ := (row_eq_none_iff _).mp h
  have hvw : v = w := by simpa [hv, encode] using encode_decode w
  rw [hv, hvw]

theorem wellFormed_of_ne_nop {i : Instr} (h : ∀ w, i ≠ .nop w) : i.WellFormed := by
  cases i with
  | nop w => exact absurd rfl (h w)
  | _ => rfl

/-- The decoder gives the no-operation to the words that no row of the opcode map selects, and to no others. -/
theorem decode_eq_nop_iff (w : Word) : decode w = .nop w ↔ unrecognised w = true := by
  rw [unrecognised_iff]
  constructor
  · intro h r hr
    by_contra hsel
    have := row_decode_of_selects hr (by simpa using hsel)
    simp [h, Laws.FixedBits.row] at this
  · intro hnone
    by_contra hne
    rw [decode_eq_nop_iff_row] at hne
    obtain ⟨r, hrow⟩ := Option.ne_none_iff_exists'.mp hne
    have hwf : (decode w).WellFormed := wellFormed_of_ne_nop fun v hv => hne ((row_eq_none_iff _).mpr ⟨v, hv⟩)
    have hbits := fixedBits (decode w) hwf
    rw [hrow, encode_decode] at hbits
    simp [hnone r hbits.1] at hbits

theorem wellFormed_decode (w : Word) : (decode w).WellFormed := by
  by_cases h : ∃ v, decode w = .nop v
  · have hnop : decode w = .nop w := decode_eq_nop_iff_row.mpr ((row_eq_none_iff _).mpr h)
    rw [hnop]
    exact (decode_eq_nop_iff w).mp hnop
  · exact wellFormed_of_ne_nop fun v hv => h ⟨v, hv⟩

/-! ## Decoding what was encoded -/

/-- The word of an instruction has its operands in the fields the decoder reads them from. -/
theorem decode_encode (i : Instr) (h : i.WellFormed) : decode (encode i) = i := by
  cases i with
  | cls | ret => decide
  | jp | call | ldI | jpV0 => simp [encode, decode]
  | seImm | sneImm | ldImm | addImm | rnd => simp [encode, decode]
  | seReg => simp [encode, decode, decode5]
  | ldReg | orReg | andReg | xorReg | addReg | subReg | shr | subnReg | shl => simp [encode, decode, decode8]
  | sneReg => simp [encode, decode, decode9]
  | drw => simp [encode, decode]
  | skp | sknp => simp [encode, decode, decodeE]
  | ldVxDt | ldVxK | ldDtVx | ldStVx | addI | ldF | ldB | dump | load => simp [encode, decode, decodeF]
  | nop w => exact (decode_eq_nop_iff w).mpr h

/-! ## The words without a meaning, group by group -/

theorem decodeZ_eq_nop_iff (w : Word) : decodeZ w = .nop w ↔ w ≠ 0x00E0#16 ∧ w ≠ 0x00EE#16 := by
  unfold decodeZ
  split_ifs <;> simp_all

theorem decode5_eq_nop_iff (w : Word) : decode5 w = .nop w ↔ fieldN w ≠ 0x0 := by
  simp [decode5]

theorem decode8_eq_nop_iff (w : Word) :
    decode8 w = .nop w ↔ fieldN w ∈ [0x8, 0x9, 0xA, 0xB, 0xC, 0xD, 0xF] := by
  unfold decode8
  generalize fieldN w = n
  fin_cases n <;> simp

theorem decode9_eq_nop_iff (w : Word) : decode9 w = .nop w ↔ fieldN w ≠ 0x0 := by
  simp [decode9]

theorem decodeE_eq_nop_iff (w : Word) : decodeE w = .nop w ↔ fieldNN w ∉ [0x9E#8, 0xA1#8] := by
  unfold decodeE
  split <;> simp_all [← BitVec.toNat_inj]

theorem decodeF_eq_nop_iff (w : Word) : decodeF w = .nop w ↔
    fieldNN w ∉ [0x07#8, 0x0A#8, 0x15#8, 0x18#8, 0x1E#8, 0x29#8, 0x33#8, 0x55#8, 0x65#8] := by
  unfold decodeF
  split <;> simp_all [← BitVec.toNat_inj]

end Sys2Proof

namespace Sys2Proof.Machine

/-- Settles O1: the encoder's word has every operand in the field the decoder reads. -/
theorem decodeOfEncodeIsIdentity : Obligations.DecodeOfEncodeIsIdentity := decode_encode

/-- Settles O2: the decoder drops no bit of a word, and its no-operations are the words of no row. -/
theorem encodeOfDecodeIsIdentity : Obligations.EncodeOfDecodeIsIdentity :=
  fun w => ⟨encode_decode w, wellFormed_decode w⟩

/-- Settles O3: every row that selects a word is the row of the instruction it decodes to, so there is one at most. -/
theorem opcodeMapIsUnambiguous : Obligations.OpcodeMapIsUnambiguous := by
  intro w
  constructor
  · have hnodup : (opcodeMap.filter fun r => r.selects w).Nodup := List.Nodup.filter _ (by decide)
    have hsub : (opcodeMap.filter fun r => r.selects w) ⊆ (Laws.FixedBits.row (decode w)).toList := fun r hr => by
      obtain ⟨hmem, hsel⟩ := List.mem_filter.mp hr
      exact Option.mem_toList.mpr (row_decode_of_selects hmem hsel)
    exact (List.subperm_of_subset hnodup hsub).length_le.trans Option.length_toList_le
  · rw [decode_eq_nop_iff, unrecognised_iff, List.filter_eq_nil_iff]
    simp

/-- Settles O4: major opcode by major opcode, from the sub-decoders' own conditions. -/
theorem unrecognisedWordsAreThoseListed : Obligations.UnrecognisedWordsAreThoseListed := by
  intro w
  have hlt := n1_lt w
  -- Only the opcodes with a sub-decoder are left: 0, 5, 8, 9, E and F.
  interval_cases h : n1 w <;>
    simp only [decode, h, reduceCtorEq, Nat.reduceEqDiff, OfNat.ofNat_ne_zero, one_ne_zero,
      false_and, true_and, false_or, or_false]
  · exact decodeZ_eq_nop_iff w
  · exact decode5_eq_nop_iff w
  · exact decode8_eq_nop_iff w
  · exact decode9_eq_nop_iff w
  · exact decodeE_eq_nop_iff w
  · exact decodeF_eq_nop_iff w

/-- Settles O5: the decoder run on each word. -/
theorem wordsOfEachFamilyDecode : Obligations.WordsOfEachFamilyDecode := by
  unfold Obligations.WordsOfEachFamilyDecode
  decide

end Sys2Proof.Machine

/-! A step: what precedes the fetch, the timer phase, the failing fetch, totality (30_encoding.md rules R45, R47, R48;
60_exceptions.md rules R110, R111, R115, R118). -/

namespace Sys2Proof.Machine

/-! ## Which of a step's two ends it is -/

theorem step_of_fetchFails {s : State} (h : s.fetchFails = true) :
    step s = .next ((beginStep s).raise .addressOutOfRange) := by
  rcases step_cases s with ⟨_, e⟩ | ⟨hok, _⟩
  · exact e
  · simp [h] at hok

theorem step_of_fetch {s : State} (h : s.fetchFails = false) :
    step s = exec (decode s.wordAtPc) (beginStep s).advancePc := by
  rcases step_cases s with ⟨hfails, _⟩ | ⟨_, e⟩
  · simp [h] at hfails
  · exact e

theorem fetchFails_of_wrap {s : State} (h : s.cfg.pcOverrunPolicy = .wrap) : s.fetchFails = false :=
  (fetchFails_false_iff s).mpr fun hr => by simp [h] at hr

theorem fetchFails_of_le {s : State} (h : s.pc.toNat ≤ 0xFFE) : s.fetchFails = false :=
  (fetchFails_false_iff s).mpr fun _ => h

/-! ## The start of a step -/

theorem nextInputs_cons {s : State} {p : StepInputs} {ps : List StepInputs} (h : s.schedule = p :: ps) :
    s.nextInputs = p := by
  simp [State.nextInputs, h]

theorem nextInputs_nil {s : State} (h : s.schedule = []) :
    s.nextInputs = ⟨Config.freeCalls s.stepIndex, Config.freeNow s.stepIndex, Config.freeRand s.stepIndex⟩ := by
  simp [State.nextInputs, h]

theorem beginStep_eq (s : State) : beginStep s = timerPhase s.nextInputs.now
    { hostCalls s.nextInputs.calls s with
      rand := s.nextInputs.rand, result := .ok, schedule := s.schedule.tail, stepIndex := s.stepIndex + 1 } := rfl

/-- Settles O7: the inputs are the schedule's head or the free values; the start of a step writes no other field. -/
theorem stepBeginsWithHostCallsAndTimerPhase : Obligations.StepBeginsWithHostCallsAndTimerPhase := by
  refine fun s => ⟨fun p ps h => ?_, fun h => ?_, rfl⟩
  · rw [beginStep_eq, nextInputs_cons h, h, List.tail_cons]
  · rw [beginStep_eq, nextInputs_nil h, h, List.tail_nil]

/-- Settles O6: a fetch that does not fail hands the decoded word to `exec`, and the advance is by 2 under either
policy. -/
theorem stepRunsDecodedInstruction : Obligations.StepRunsDecodedInstruction := by
  intro s i hdecode
  have hi : decode s.wordAtPc = i := congrArg Prod.fst (Except.ok.inj hdecode)
  refine ⟨fun hreport hpc => ?_, fun hwrap => ?_⟩
  · have hadvance : pcValue s.cfg (s.pc.toNat + 2) = s.pc + 2 :=
      BitVec.eq_of_toNat_eq (by rw [pcValue_toNat_report hreport (by omega)]; bv_omega)
    rw [step_of_fetch (fetchFails_of_le hpc), hi, ← hadvance]
    rfl
  · rw [step_of_fetch (fetchFails_of_wrap hwrap), hi, ← pcValue_wrap hwrap]
    rfl

/-- Settles O30: the no-operation's meaning is to go on from the state the fetch left. -/
theorem unrecognisedWordDoesNothing : Obligations.UnrecognisedWordDoesNothing := by
  refine ⟨fun _ _ => rfl, fun s w h => ?_⟩
  have hnop : decode w = .nop w := (decode_eq_nop_iff w).mpr h
  refine ⟨hnop, fun hfetch hw => ?_⟩
  rw [step_of_fetch hfetch, hw, hnop]
  rfl

/-- Settles O13: the start of a step overwrites the earlier result before anything reads it. -/
theorem earlierResultIsNotRead : Obligations.EarlierResultIsNotRead := fun _ _ => rfl

/-! ## The timer phase -/

theorem timerPhase_of_not_due {s : State} {now : Nat} (h : s.tickDue now = false) : timerPhase now s = s := by
  simp [timerPhase, h]

/-- Settles O8: a due tick counts both timers down and advances `LTT`; without one every field keeps its value. -/
theorem timerPhaseCountsDownOncePerDueTick : Obligations.TimerPhaseCountsDownOncePerDueTick := by
  refine fun s now => ⟨fun h => timerPhase_of_not_due ?notDue, fun hnow hperiod => ?due⟩
  case notDue =>
    rw [← Bool.not_eq_true, tickDue_iff]
    omega
  case due =>
    have hdue : s.tickDue now = true := (tickDue_iff s now).mpr ⟨hnow, hperiod⟩
    refine ⟨by simp [hdue, countDown_toNat], by simp [hdue, countDown_toNat], fun h => ?_, fun h => ?_, rfl⟩
    · simp [hdue, State.lttAfterTick, h]
    · simp [hdue, State.lttAfterTick, h]

theorem beginStep_dt (s : State) :
    (beginStep s).dt = if s.tickDue s.nextInputs.now then countDown s.dt else s.dt := rfl

theorem beginStep_st (s : State) :
    (beginStep s).st = if s.tickDue s.nextInputs.now then countDown s.st else s.st := rfl

theorem beginStep_ltt (s : State) :
    (beginStep s).ltt = if s.tickDue s.nextInputs.now then s.lttAfterTick s.nextInputs.now else s.ltt := rfl

/-- Settles O9: the step's timer phase has counted `DT` down before `Fx07` copies it. -/
theorem delayTimerReadSeesTickOfSameStep : Obligations.DelayTimerReadSeesTickOfSameStep := by
  intro s p ps x hschedule hnow hperiod hfetch hdecode
  have hdue : s.tickDue s.nextInputs.now = true := by
    rw [nextInputs_cons hschedule, tickDue_iff]
    exact ⟨hnow, hperiod⟩
  have hdt : (beginStep s).dt = countDown s.dt := by rw [beginStep_dt, if_pos hdue]
  refine ⟨(beginStep s).advancePc.setReg x (countDown s.dt), ?_, ?_, ?_, fun r hr => ?_, rfl⟩
  · rw [step_of_fetch hfetch, hdecode, ← hdt]
    rfl
  · rw [reg_setReg_self, countDown_toNat]
  · rw [reg_setReg_self]
    exact hdt
  · exact reg_setReg_of_ne _ _ hr

/-! ## Failing fetches, and totality -/

/-- Settles O10: the failed step writes its result only, so `PC` stays where the next fetch fails too. -/
theorem fetchBeyondMemoryFailsEveryStep : Obligations.FetchBeyondMemoryFailsEveryStep := by
  intro s hreport hpc
  have hfails : s.fetchFails = true := (fetchFails_iff s).mpr ⟨hreport, hpc⟩
  have hagain : ((beginStep s).raise .addressOutOfRange).fetchFails = true := hfails
  exact ⟨_, step_of_fetchFails hfails, rfl, raise_pc _ _, _, step_of_fetchFails hagain, by simp, raise_result _ _⟩

theorem exec_next (i : Instr) (s : State) : ∃ t, exec i s = .next t :=
  (exec_next_cfg i s).imp fun _ h => h.1

/-- Settles O11: a failing fetch is a next state, and every instruction completes. -/
theorem everyStepAnswersNext : Obligations.EveryStepAnswersNext := by
  refine ⟨fun s => ?_, exec_next⟩
  rcases step_cases s with ⟨_, e⟩ | ⟨_, e⟩
  · exact ⟨_, e⟩
  · exact (exec_next _ _).imp fun t h => e.trans h

end Sys2Proof.Machine

/-! What an instruction can write, and what follows for a whole step (10_state.md section 1; 60_exceptions.md rules
R106 to R109, R118). -/

namespace Sys2Proof.Machine

/-! ## Each piece of state and its writers -/

/-- `t` differs from `s` only in what the spec's state table lets `i` write. A field left out of a proof is one whose
state is unchanged by the form of `t`. -/
structure WritesAsListed (i : Instr) (s t : State) : Prop where
  mem : SameBytes s t ∨ (∃ x, i = .ldB x) ∨ ∃ x, i = .dump x := by exact .inl (sameBytes_of_mem_eq rfl)
  fb : t.fb = s.fb ∨ i = .cls ∨ ∃ x y n, i = .drw x y n := by exact .inl rfl
  changed : t.changed = s.changed ∨ i = .cls ∨ ∃ x y n, i = .drw x y n := by exact .inl rfl
  stack : t.stack = s.stack ∨ ∃ nnn, i = .call nnn := by exact .inl rfl
  sp : t.sp = s.sp ∨ i = .ret ∨ ∃ nnn, i = .call nnn := by exact .inl rfl
  dt : t.dt = s.dt ∨ ∃ x, i = .ldDtVx x := by exact .inl rfl
  st : t.st = s.st ∨ ∃ x, i = .ldStVx x := by exact .inl rfl
  keys : t.keys = s.keys ∨ ∃ x, i = .ldVxK x := by exact .inl rfl
  pc : t.pc = s.pc ∨ i = .ret ∨ (∃ nnn, i = .jp nnn) ∨ (∃ nnn, i = .call nnn) ∨ (∃ nnn, i = .jpV0 nnn) ∨
    skipTaken i s ∨ ∃ x, i = .ldVxK x := by exact .inl rfl
  i : t.i = s.i ∨ (∃ nnn, i = .ldI nnn) ∨ (∃ x, i = .addI x) ∨ (∃ x, i = .ldF x) ∨
    s.cfg.dumpLoadIncrementsIndex = true ∧ ((∃ x, i = .dump x) ∨ ∃ x, i = .load x) := by exact .inl rfl
  inputs : t.ltt = s.ltt ∧ t.cfg = s.cfg ∧ t.rand = s.rand ∧ t.schedule = s.schedule ∧ t.stepIndex = s.stepIndex := by
    exact ⟨rfl, rfl, rfl, rfl, rfl⟩

theorem skipIf_writesAsListed {i : Instr} {c : Bool} {s : State} (hc : c = true → skipTaken i s) :
    WritesAsListed i s (skipIf c s) := by
  have hpc : (skipIf c s).pc = s.pc ∨ skipTaken i s := by
    cases c with
    | false => exact .inl rfl
    | true => exact .inr (hc rfl)
  rw [skipIf_frame]
  exact { pc := by simpa using hpc.imp_right fun h => by simp [h] }

theorem execRet_writesAsListed (s : State) : ∃ t, execRet s = .next t ∧ WritesAsListed .ret s t := by
  refine ⟨_, rfl, ?_⟩
  rcases pop_cases s with ⟨_, e⟩ | ⟨_, _, e⟩
  · rw [e]; exact {}
  · rw [e]; exact { sp := .inr (.inl rfl), pc := .inr (.inl rfl) }

theorem execCall_writesAsListed (nnn : Addr) (s : State) :
    ∃ t, execCall nnn s = .next t ∧ WritesAsListed (.call nnn) s t := by
  refine ⟨_, rfl, ?_⟩
  rcases push_cases s.pc s with ⟨_, e⟩ | ⟨_, e⟩
  · rw [e]; exact {}
  · rw [e]; exact { stack := .inr ⟨nnn, rfl⟩, sp := .inr (.inr ⟨nnn, rfl⟩), pc := .inr (.inr (.inr (.inl ⟨nnn, rfl⟩))) }

theorem execAddI_writesAsListed (x : Reg) (s : State) :
    ∃ t, execAddI x s = .next t ∧ WritesAsListed (.addI x) s t := by
  refine ⟨_, rfl, ?_⟩
  cases s.cfg.indexAddSetsVF <;> exact { i := .inr (.inr (.inl ⟨x, rfl⟩)) }

theorem execLdVxK_writesAsListed (x : Reg) (s : State) :
    ∃ t, execLdVxK x s = .next t ∧ WritesAsListed (.ldVxK x) s t := by
  refine ⟨_, rfl, ?_⟩
  cases s.leastKey with
  | none => exact { pc := by simp }
  | some k => exact { keys := .inr ⟨x, rfl⟩ }

/-- A block transfer writes `I` only under `cfg.dumpLoadIncrementsIndex`. -/
theorem indexAfterBlock_i_cases (s : State) :
    s.indexAfterBlock.i = s.i ∨ s.cfg.dumpLoadIncrementsIndex = true := by
  cases h : s.cfg.dumpLoadIncrementsIndex <;> simp [h]

theorem execDump_writesAsListed (x : Reg) (s : State) :
    ∃ t, execDump x s = .next t ∧ WritesAsListed (.dump x) s t :=
  ⟨_, rfl, { mem := by simp, i := (indexAfterBlock_i_cases (s.storeAtI s.v.toList)).imp id fun h => by simpa using h }⟩

theorem loadedRegs_writesAsListed (x : Reg) (s : State) (v : Vector Byte 16) :
    WritesAsListed (.load x) s ({ s with v := v } : State).indexAfterBlock :=
  { i := (indexAfterBlock_i_cases { s with v := v }).imp id fun h => by simpa using h }

theorem execLoad_writesAsListed (x : Reg) (s : State) :
    ∃ t, execLoad x s = .next t ∧ WritesAsListed (.load x) s t :=
  ⟨_, rfl, loadedRegs_writesAsListed x s _⟩

/-- Every instruction writes what the table lists for it. Those that branch, and the block transfers, have a lemma
above. -/
theorem exec_next_writesAsListed (i : Instr) (s : State) : ∃ t, exec i s = .next t ∧ WritesAsListed i s t :=
  match i with
  | .ret => execRet_writesAsListed s
  | .call nnn => execCall_writesAsListed nnn s
  | .addI x => execAddI_writesAsListed x s
  | .ldVxK x => execLdVxK_writesAsListed x s
  | .dump x => execDump_writesAsListed x s
  | .load x => execLoad_writesAsListed x s
  | .seImm _ _ | .seReg _ _ => ⟨_, rfl, skipIf_writesAsListed fun h => by simpa [skipTaken] using h⟩
  | .sneImm _ _ | .sneReg _ _ => ⟨_, rfl, skipIf_writesAsListed fun h => by simpa [skipTaken] using h⟩
  | .skp _ | .sknp _ => ⟨_, rfl, skipIf_writesAsListed fun h => by simpa [skipTaken] using h⟩
  | .jp _ | .jpV0 _ => ⟨_, rfl, { pc := by simp }⟩
  | .cls => ⟨_, rfl, { fb := .inr (.inl rfl), changed := .inr (.inl rfl) }⟩
  | .drw _ _ _ => ⟨_, rfl, { fb := by simp, changed := by simp }⟩
  | .ldI _ | .ldF _ => ⟨_, rfl, { i := by simp }⟩
  | .ldB _ => ⟨_, rfl, { mem := by simp }⟩
  | .ldDtVx _ => ⟨_, rfl, { dt := by simp }⟩
  | .ldStVx _ => ⟨_, rfl, { st := by simp }⟩
  | .ldImm _ _ | .addImm _ _ | .ldReg _ _ | .orReg _ _ | .andReg _ _ | .xorReg _ _ | .addReg _ _ => ⟨_, rfl, {}⟩
  | .subReg _ _ | .shr _ _ | .subnReg _ _ | .shl _ _ | .rnd _ _ | .ldVxDt _ | .nop _ => ⟨_, rfl, {}⟩

theorem exec_writesAsListed {i : Instr} {s t : State} (h : exec i s = .next t) : WritesAsListed i s t := by
  obtain ⟨u, hu, hlisted⟩ := exec_next_writesAsListed i s
  cases hu.symm.trans h
  exact hlisted

/-- Settles O19: instruction by instruction, the fields its meaning writes. -/
theorem stateIsWrittenOnlyByItsListedWriters : Obligations.StateIsWrittenOnlyByItsListedWriters := by
  intro i s t h
  obtain ⟨hmem, hfb, hchanged, hstack, hsp, hdt, hst, hkeys, hpc, hi, hinputs⟩ := exec_writesAsListed h
  exact ⟨hmem, hfb, hchanged, hstack, hsp, hdt, hst, hkeys, hpc, hi, hinputs⟩

/-! ## The timers over a whole step -/

theorem exec_ltt {i : Instr} {s t : State} (h : exec i s = .next t) : t.ltt = s.ltt :=
  (exec_writesAsListed h).inputs.1

/-- A due tick has `now` at or after `LTT`, so either way of advancing it goes forward. -/
theorem ltt_le_beginStep_ltt (s : State) : s.ltt ≤ (beginStep s).ltt := by
  rw [beginStep_ltt]
  split_ifs with hdue
  · have hnow : s.ltt ≤ s.nextInputs.now := ((tickDue_iff s _).mp hdue).1
    unfold State.lttAfterTick
    split
    · exact hnow
    · exact Nat.le_add_right _ _
  · exact le_refl _

/-- Settles O17: neither end of a step writes `LTT` after the timer phase, which moves it forward only. -/
theorem lastTimerTickNeverDecreases : Obligations.LastTimerTickNeverDecreases := by
  intro s t h
  have hltt : t.ltt = (beginStep s).ltt := by
    rcases step_cases s with ⟨_, e⟩ | ⟨_, e⟩
    · cases e.symm.trans h
      rfl
    · exact (exec_ltt (e.symm.trans h)).trans (advancePc_ltt _)
  rw [hltt]
  exact ltt_le_beginStep_ltt s

theorem countDown_cases (t : Byte) : countDown t = t ∨ (countDown t).toNat + 1 = t.toNat := by
  unfold countDown
  split_ifs with h
  · exact .inl rfl
  · exact .inr (by bv_omega)

theorem beginStep_dt_cases (s : State) : (beginStep s).dt = s.dt ∨ (beginStep s).dt.toNat + 1 = s.dt.toNat := by
  rw [beginStep_dt]
  split_ifs
  · exact countDown_cases s.dt
  · exact .inl rfl

theorem beginStep_st_cases (s : State) : (beginStep s).st = s.st ∨ (beginStep s).st.toNat + 1 = s.st.toNat := by
  rw [beginStep_st]
  split_ifs
  · exact countDown_cases s.st
  · exact .inl rfl

/-- Settles O18: a step without the timer's one writer ends with the timer as the timer phase left it. -/
theorem timersFallByAtMostOnePerStep : Obligations.TimersFallByAtMostOnePerStep := by
  intro s t h
  rcases step_cases s with ⟨_, e⟩ | ⟨_, e⟩
  · cases e.symm.trans h
    exact ⟨fun _ => beginStep_dt_cases s, fun _ => beginStep_st_cases s⟩
  · have hlisted := exec_writesAsListed (e.symm.trans h)
    refine ⟨fun hno => ?_, fun hno => ?_⟩
    · have hdt : t.dt = (beginStep s).dt := hlisted.dt.resolve_right fun ⟨x, hx⟩ => hno x hx
      rw [hdt]
      exact beginStep_dt_cases s
    · have hst : t.st = (beginStep s).st := hlisted.st.resolve_right fun ⟨x, hx⟩ => hno x hx
      rw [hst]
      exact beginStep_st_cases s

/-! ## The exceptions -/

/-- The rows of the spec's table of exceptions that an instruction can meet at `s`. -/
def FailsWith (i : Instr) (s : State) (e : StepError) : Prop :=
  ((∃ nnn, i = .call nnn) ∧ s.sp.val = 16 ∧ e = .stackOverflow) ∨
  (i = .ret ∧ s.sp.val = 0 ∧ e = .stackUnderflow) ∨
  (skipTaken i s ∧ s.fetchFails = true ∧ e = .addressOutOfRange)

/-- `i` completes at `s`, and where the result so far is `Ok` it ends with the exceptions of the table and no other. -/
def FailsAsListed (i : Instr) (s : State) : Prop :=
  ∃ t, exec i s = .next t ∧ (s.result = .ok → ∀ e, t.result = .err e ↔ FailsWith i s e)

/-- An instruction with no row in the table keeps the result. -/
theorem failsAsListed_of_result {i : Instr} {s t : State} (h : exec i s = .next t) (hresult : t.result = s.result)
    (hnone : ∀ e, ¬ FailsWith i s e) : FailsAsListed i s :=
  ⟨t, h, fun hok e => by simp [hresult, hok, hnone e]⟩

theorem failsAsListed_of_skipIf {i : Instr} {s : State} {c : Bool} (h : exec i s = .next (skipIf c s))
    (hfails : ∀ e, FailsWith i s e ↔ c = true ∧ s.fetchFails = true ∧ e = .addressOutOfRange) :
    FailsAsListed i s := by
  refine ⟨_, h, fun hok e => ?_⟩
  rw [hfails]
  cases c with
  | false => simp [skipIf_false, hok]
  | true =>
    rw [skipIf_true]
    rcases skip_cases s with ⟨hf, hs⟩ | ⟨hf, hs⟩
    · simp [hs, hf, eq_comm (a := e)]
    · simp [hs, hf, hok]

theorem execRet_failsAsListed (s : State) : FailsAsListed .ret s := by
  refine ⟨_, rfl, fun hok e => ?_⟩
  rcases pop_cases s with ⟨h, hpop⟩ | ⟨_, h, hpop⟩
  · simp [hpop, FailsWith, skipTaken, h, eq_comm (a := e)]
  · simp [hpop, FailsWith, skipTaken, h, hok]

theorem execCall_failsAsListed (nnn : Addr) (s : State) : FailsAsListed (.call nnn) s := by
  refine ⟨_, rfl, fun hok e => ?_⟩
  rcases push_cases s.pc s with ⟨h, hpush⟩ | ⟨h, hpush⟩
  · simp [hpush, FailsWith, skipTaken, h, eq_comm (a := e)]
  · simp [hpush, FailsWith, skipTaken, h.ne, hok]

theorem execAddI_failsAsListed (x : Reg) (s : State) : FailsAsListed (.addI x) s := by
  refine failsAsListed_of_result rfl ?_ (by simp [FailsWith, skipTaken])
  cases s.cfg.indexAddSetsVF <;> rfl

theorem execLdVxK_failsAsListed (x : Reg) (s : State) : FailsAsListed (.ldVxK x) s := by
  refine failsAsListed_of_result rfl ?_ (by simp [FailsWith, skipTaken])
  cases s.leastKey <;> rfl

/-- Every instruction fails as the table says: the call and the return by the stack, a taken skip by its fetch, the
others never. -/
theorem exec_failsAsListed (i : Instr) (s : State) : FailsAsListed i s :=
  match i with
  | .ret => execRet_failsAsListed s
  | .call nnn => execCall_failsAsListed nnn s
  | .addI x => execAddI_failsAsListed x s
  | .ldVxK x => execLdVxK_failsAsListed x s
  | .seImm _ _ | .seReg _ _ => failsAsListed_of_skipIf rfl (by simp [FailsWith, skipTaken])
  | .sneImm _ _ | .sneReg _ _ => failsAsListed_of_skipIf rfl (by simp [FailsWith, skipTaken])
  | .skp _ | .sknp _ => failsAsListed_of_skipIf rfl (by simp [FailsWith, skipTaken])
  | .cls | .jp _ | .ldImm _ _ | .addImm _ _ | .ldReg _ _ | .orReg _ _ | .andReg _ _ | .xorReg _ _ =>
    failsAsListed_of_result rfl rfl (by simp [FailsWith, skipTaken])
  | .addReg _ _ | .subReg _ _ | .shr _ _ | .subnReg _ _ | .shl _ _ | .ldI _ | .jpV0 _ | .rnd _ _ =>
    failsAsListed_of_result rfl rfl (by simp [FailsWith, skipTaken])
  | .drw _ _ _ | .ldVxDt _ | .ldDtVx _ | .ldStVx _ | .ldF _ | .ldB _ | .nop _ =>
    failsAsListed_of_result rfl rfl (by simp [FailsWith, skipTaken])
  | .dump _ | .load _ => failsAsListed_of_result rfl (indexAfterBlock_result _) (by simp [FailsWith, skipTaken])

/-- Settles O12: a failing fetch gives its own exception, and an executed instruction that of its row of the table. -/
theorem stepFailsExactlyAsListed : Obligations.StepFailsExactlyAsListed := by
  intro s t e h
  rcases step_cases s with ⟨hf, hstep⟩ | ⟨hf, hstep⟩
  · cases hstep.symm.trans h
    simp [hf, eq_comm (a := e)]
  · obtain ⟨u, hu, hresult⟩ := exec_failsAsListed (decode s.wordAtPc) (beginStep s).advancePc
    cases hu.symm.trans (hstep.symm.trans h)
    simpa [hf, FailsWith] using hresult (by simp) e

/-! ## The random input -/

/-- `i` completes at `s` and does the same whatever the random input. -/
def IgnoresRandom (i : Instr) (s : State) : Prop :=
  ∃ t, exec i s = .next t ∧ ∀ b, exec i { s with rand := b } = .next { t with rand := b }

theorem skipIf_withRand (c : Bool) (s : State) (b : Byte) :
    skipIf c { s with rand := b } = { skipIf c s with rand := b } := by
  have hfails : State.fetchFails { s with rand := b } = s.fetchFails := rfl
  cases c with
  | false => rfl
  | true =>
    rw [skipIf_true, skipIf_true, skip, skip, fetchAdvance, fetchAdvance, hfails]
    cases s.fetchFails <;> rfl

theorem push_withRand (v : Word) (s : State) (b : Byte) :
    push v { s with rand := b } = (push v s).map fun t => { t with rand := b } := by
  unfold push
  split <;> rfl

theorem pop_withRand (s : State) (b : Byte) :
    pop { s with rand := b } = (pop s).map fun r => (r.1, { r.2 with rand := b }) := by
  unfold pop
  split <;> rfl

theorem ignoresRandom_of_skipIf {i : Instr} {s : State} (c : Bool)
    (h : ∀ b, exec i { s with rand := b } = .next (skipIf c { s with rand := b })) : IgnoresRandom i s :=
  ⟨skipIf c s, h s.rand, fun b => by rw [h b, skipIf_withRand]⟩

theorem execRet_ignoresRandom (s : State) : IgnoresRandom .ret s := by
  refine ⟨_, rfl, fun b => ?_⟩
  rw [exec, execRet, pop_withRand]
  cases pop s <;> rfl

theorem execCall_ignoresRandom (nnn : Addr) (s : State) : IgnoresRandom (.call nnn) s := by
  refine ⟨_, rfl, fun b => ?_⟩
  rw [exec, execCall, push_withRand]
  cases push s.pc s <;> rfl

theorem execAddI_ignoresRandom (x : Reg) (s : State) : IgnoresRandom (.addI x) s := by
  refine ⟨_, rfl, fun b => ?_⟩
  rw [exec, execAddI]
  cases s.cfg.indexAddSetsVF <;> rfl

theorem execLdVxK_ignoresRandom (x : Reg) (s : State) : IgnoresRandom (.ldVxK x) s := by
  have hleast : ∀ b, State.leastKey { s with rand := b } = s.leastKey := fun _ => rfl
  refine ⟨_, rfl, fun b => ?_⟩
  rw [exec, execLdVxK, hleast]
  cases s.leastKey <;> rfl

/-- Every instruction but `Cxnn` ignores the random input. -/
theorem exec_ignoresRandom (i : Instr) (s : State) (hi : ∀ x nn, i ≠ .rnd x nn) : IgnoresRandom i s :=
  match i with
  | .rnd x nn => absurd rfl (hi x nn)
  | .ret => execRet_ignoresRandom s
  | .call nnn => execCall_ignoresRandom nnn s
  | .addI x => execAddI_ignoresRandom x s
  | .ldVxK x => execLdVxK_ignoresRandom x s
  | .seImm x nn => ignoresRandom_of_skipIf (s.reg x == nn) fun _ => rfl
  | .sneImm x nn => ignoresRandom_of_skipIf (s.reg x != nn) fun _ => rfl
  | .seReg x y => ignoresRandom_of_skipIf (s.reg x == s.reg y) fun _ => rfl
  | .sneReg x y => ignoresRandom_of_skipIf (s.reg x != s.reg y) fun _ => rfl
  | .skp x => ignoresRandom_of_skipIf (s.key (s.keyOf x)) fun _ => rfl
  | .sknp x => ignoresRandom_of_skipIf (!s.key (s.keyOf x)) fun _ => rfl
  | .cls | .jp _ | .ldImm _ _ | .addImm _ _ | .ldReg _ _ | .orReg _ _ | .andReg _ _ | .xorReg _ _ =>
    ⟨_, rfl, fun _ => rfl⟩
  | .addReg _ _ | .subReg _ _ | .shr _ _ | .subnReg _ _ | .shl _ _ | .ldI _ | .jpV0 _ | .drw _ _ _ =>
    ⟨_, rfl, fun _ => rfl⟩
  | .ldVxDt _ | .ldDtVx _ | .ldStVx _ | .ldF _ | .ldB _ | .dump _ | .load _ | .nop _ => ⟨_, rfl, fun _ => rfl⟩

/-- Settles O20: no other meaning has the input among what it reads. -/
theorem onlyRandomReadsRandomInput : Obligations.OnlyRandomReadsRandomInput := by
  intro i s t b hi h
  obtain ⟨u, hu, hother⟩ := exec_ignoresRandom i s hi
  cases hu.symm.trans h
  exact hother b

end Sys2Proof.Machine

/-! The invariant of the machine: reset meets it and every step keeps it (10_state.md section 13). -/

namespace Sys2Proof.Machine

/-! ## The range of `PC` -/

theorem returnLimit_le_pcLimit (cfg : Configuration) : returnLimit cfg ≤ pcLimit cfg := by
  unfold returnLimit pcLimit
  split <;> decide

/-- Under `wrap` every write of `PC` is in range; under `report` the target has to be. -/
theorem pcValue_le {cfg : Configuration} {t limit : Nat} (hwrap : cfg.pcOverrunPolicy = .wrap → 0xFFF ≤ limit)
    (hreport : cfg.pcOverrunPolicy = .report → t ≤ limit) : (pcValue cfg t).toNat ≤ limit := by
  cases h : cfg.pcOverrunPolicy with
  | wrap => have := hwrap h; rw [pcValue_toNat_wrap h]; omega
  | report =>
    rw [pcValue_report h, BitVec.toNat_ofNat]
    exact (Nat.mod_le _ _).trans (hreport h)

theorem pcValue_le_pcLimit {cfg : Configuration} {t : Nat} (h : cfg.pcOverrunPolicy = .report → t ≤ 0x10FE) :
    (pcValue cfg t).toNat ≤ pcLimit cfg :=
  pcValue_le (fun hw => by simp [pcLimit, hw]) fun hr => by simpa [pcLimit, hr] using h hr

/-- Where a fetch can happen the advanced `PC` is a legal return address. -/
theorem advancePc_le_returnLimit {s : State} (h : s.fetchFails = false) :
    s.advancePc.pc.toNat ≤ returnLimit s.cfg := by
  rw [fetchFails_false_iff] at h
  refine pcValue_le (fun hw => by simp [returnLimit, hw]) fun hr => ?_
  have := h hr
  simp only [returnLimit, hr]
  omega

theorem returnLimit_of_report {cfg : Configuration} (h : cfg.pcOverrunPolicy = .report) : returnLimit cfg = 0x1000 := by
  simp [returnLimit, h]

theorem toNat_ofNat_mod_memSize (t : Nat) : (BitVec.ofNat 16 (t % memSize)).toNat = t % 4096 := by
  rw [BitVec.toNat_ofNat]
  simp only [memSize]
  omega

theorem toNat_addrWord (nnn : Addr) : (addrWord nnn).toNat = nnn.toNat :=
  BitVec.toNat_setWidth_of_le (by decide)

/-! ## Each kind of write keeps the invariant -/

theorem State.Inv.writePc {s : State} (h : s.Inv) {t : Nat} (ht : s.cfg.pcOverrunPolicy = .report → t ≤ 0x10FE) :
    (s.writePc t).Inv :=
  { h with pc := pcValue_le_pcLimit ht }

theorem State.Inv.setI {s : State} (h : s.Inv) (t : Nat) : (s.setI t).Inv := by
  refine { h with i := ?_ }
  rw [setI_i, toNat_ofNat_mod_memSize]
  omega

theorem State.Inv.storeAtI {s : State} (h : s.Inv) (bs : List Byte) : (s.storeAtI bs).Inv :=
  { h with mem := Memory.store_wf h.mem s.i.toNat bs }

theorem State.Inv.indexAfterBlock {s : State} (h : s.Inv) : s.indexAfterBlock.Inv := by
  refine { h with i := ?_ }
  rw [indexAfterBlock_i]
  split_ifs
  · rw [toNat_ofNat_mod_memSize]
    omega
  · exact h.i

theorem State.Inv.fbClear {s : State} (h : s.Inv) : (fbClear s).Inv :=
  { h with fb := Grid.blank_hasShape s.cfg.width s.cfg.height }

theorem State.Inv.fbDraw {s : State} (h : s.Inv) (rows : List Byte) (ox oy : Byte) : (fbDraw rows ox oy s).2.Inv :=
  { h with fb := (fbDraw_spec rows ox oy s h.fb).1 }

theorem State.Inv.skipIf {s : State} (h : s.Inv) (c : Bool) : (skipIf c s).Inv := by
  cases c with
  | false => exact h
  | true =>
    rw [skipIf_true]
    rcases skip_cases s with ⟨_, e⟩ | ⟨hf, e⟩
    · rw [e]
      exact { h with }
    · rw [e]
      exact { h with pc := (advancePc_le_returnLimit hf).trans (returnLimit_le_pcLimit s.cfg) }

/-- What the fetch-advance adds to the invariant: `PC` is a legal return address and, where it is not masked, has
moved past an instruction. -/
structure State.Fetched (s : State) : Prop extends s.Inv where
  returnable : s.pc.toNat ≤ returnLimit s.cfg
  advanced : s.cfg.pcOverrunPolicy = .report → 2 ≤ s.pc.toNat

theorem beginStep_inv {s : State} (h : s.Inv) : (beginStep s).Inv := { h with }

theorem advancePc_fetched {s : State} (h : s.Inv) (hf : s.fetchFails = false) : s.advancePc.Fetched where
  toInv := { h with pc := (advancePc_le_returnLimit hf).trans (returnLimit_le_pcLimit s.cfg) }
  returnable := advancePc_le_returnLimit hf
  advanced hr := by
    have hpc := (fetchFails_false_iff s).mp hf hr
    rw [advancePc_cfg] at hr
    rw [advancePc_pc, pcValue_toNat_report hr (by omega)]
    omega

/-! ## Every instruction and every step -/

/-- A return address is a legal `PC`. -/
theorem execRet_inv {s : State} (h : s.Inv) : ∃ t, execRet s = .next t ∧ t.Inv := by
  refine ⟨_, rfl, ?_⟩
  rcases pop_cases s with ⟨_, e⟩ | ⟨k, _, e⟩
  · rw [e]
    exact { h with }
  · rw [e]
    have hinv : State.Inv { s with sp := k.castSucc } := { h with }
    refine hinv.writePc fun hr => ?_
    exact (h.stack k).trans (by rw [returnLimit_of_report hr]; decide)

theorem execCall_inv (nnn : Addr) {s : State} (h : s.Fetched) : ∃ t, execCall nnn s = .next t ∧ t.Inv := by
  refine ⟨_, rfl, ?_⟩
  rcases push_cases s.pc s with ⟨_, e⟩ | ⟨hlt, e⟩
  · rw [e]
    exact { h.toInv with }
  · rw [e]
    have hinv : State.Inv { s with
        stack := s.stack.set s.sp.val s.pc hlt, sp := ⟨s.sp.val + 1, Nat.succ_lt_succ hlt⟩ } := by
      refine { h.toInv with stack := fun k => ?_ }
      simp only [Fin.getElem_fin, Vector.getElem_set]
      split_ifs
      · exact h.returnable
      · exact h.stack k
    exact hinv.writePc fun _ => by omega

theorem execJpV0_inv (nnn : Addr) {s : State} (h : s.Inv) : ∃ t, execJpV0 nnn s = .next t ∧ t.Inv :=
  ⟨_, rfl, h.writePc fun _ => by omega⟩

theorem execAddI_inv (x : Reg) {s : State} (h : s.Inv) : ∃ t, execAddI x s = .next t ∧ t.Inv := by
  have hinv := h.setI (s.i.toNat + (s.reg x).toNat)
  refine ⟨_, rfl, ?_⟩
  cases s.cfg.indexAddSetsVF <;> exact { hinv with }

/-- The rewind of a key wait takes back the two bytes the fetch has moved `PC` by. -/
theorem execLdVxK_inv (x : Reg) {s : State} (h : s.Fetched) : ∃ t, execLdVxK x s = .next t ∧ t.Inv := by
  refine ⟨_, rfl, ?_⟩
  cases s.leastKey with
  | some k => exact { h.toInv with }
  | none =>
    refine h.toInv.writePc fun hr => ?_
    have h2 := h.advanced hr
    have h1 := h.returnable
    rw [returnLimit_of_report hr] at h1
    bv_omega

theorem execDrw_inv (x y : Reg) (n : Fin 16) {s : State} (h : s.Inv) : ∃ t, execDrw x y n s = .next t ∧ t.Inv :=
  ⟨_, rfl, { h.fbDraw (s.spriteRows n.val) (s.reg x) (s.reg y) with }⟩

theorem execLdI_inv (nnn : Addr) {s : State} (h : s.Inv) : ∃ t, execLdI nnn s = .next t ∧ t.Inv := by
  refine ⟨_, rfl, { h with i := ?_ }⟩
  show (addrWord nnn).toNat ≤ 0xFFF
  rw [toNat_addrWord]
  omega

theorem execLoad_inv (x : Reg) {s : State} (h : s.Inv) : ∃ t, execLoad x s = .next t ∧ t.Inv :=
  have hinv : State.Inv { s with v := Vector.ofFn fun k => s.loadAtI k.val } := { h with }
  ⟨_, rfl, hinv.indexAfterBlock⟩

/-- Every instruction leaves the invariant to the next step. -/
theorem exec_next_inv (i : Instr) {s : State} (h : s.Fetched) : ∃ t, exec i s = .next t ∧ t.Inv :=
  match i with
  | .cls => ⟨_, rfl, h.toInv.fbClear⟩
  | .ret => execRet_inv h.toInv
  | .jp nnn => ⟨_, rfl, h.toInv.writePc fun _ => by omega⟩
  | .call nnn => execCall_inv nnn h
  | .jpV0 nnn => execJpV0_inv nnn h.toInv
  | .ldI nnn => execLdI_inv nnn h.toInv
  | .addI x => execAddI_inv x h.toInv
  | .ldF x => ⟨_, rfl, h.toInv.setI (glyphAddress (s.reg x))⟩
  | .ldB x => ⟨_, rfl, h.toInv.storeAtI (decimalDigits (s.reg x))⟩
  | .dump _ => ⟨_, rfl, (h.toInv.storeAtI s.v.toList).indexAfterBlock⟩
  | .load x => execLoad_inv x h.toInv
  | .drw x y n => execDrw_inv x y n h.toInv
  | .ldVxK x => execLdVxK_inv x h
  | .seImm _ _ | .sneImm _ _ | .seReg _ _ | .sneReg _ _ | .skp _ | .sknp _ => ⟨_, rfl, h.toInv.skipIf _⟩
  | .ldImm _ _ | .addImm _ _ | .ldReg _ _ | .orReg _ _ | .andReg _ _ | .xorReg _ _ => ⟨_, rfl, { h.toInv with }⟩
  | .addReg _ _ | .subReg _ _ | .shr _ _ | .subnReg _ _ | .shl _ _ | .rnd _ _ => ⟨_, rfl, { h.toInv with }⟩
  | .ldVxDt _ | .ldDtVx _ | .ldStVx _ | .nop _ => ⟨_, rfl, { h.toInv with }⟩

/-- Settles O14: the timer phase keeps the invariant, a fetch adds the range of the advanced `PC`, and no instruction
then leaves the invariant. -/
theorem stepKeepsInvariant : Obligations.StepKeepsInvariant := by
  intro s t h hstep
  have hbegin := beginStep_inv h
  rcases step_cases s with ⟨_, e⟩ | ⟨hf, e⟩
  · cases e.symm.trans hstep
    exact { hbegin with }
  · obtain ⟨u, hu, hinv⟩ := exec_next_inv (decode s.wordAtPc) (advancePc_fetched hbegin hf)
    cases hu.symm.trans (e.symm.trans hstep)
    exact hinv

/-! ## Reset -/

/-- A machine after reset meets the invariant when its configuration is legal and its memory canonical. -/
theorem initial_inv {cfg : Configuration} {mem : Memory} (hcfg : cfg.wf) (hmem : Memory.wf mem) (now : Nat) :
    (State.initial cfg mem now).Inv where
  cfg := hcfg
  mem := hmem
  i := Nat.zero_le _
  fb := Grid.blank_hasShape cfg.width cfg.height
  pc := by
    show 0x200 ≤ pcLimit cfg
    unfold pcLimit
    split <;> decide
  stack k := by simp [State.initial]

theorem Memory.wf_nil : Memory.wf [] := ⟨List.Pairwise.nil, by simp⟩

theorem canonical_wf : Configuration.canonical.wf := ⟨by decide, by decide, Nat.succ_pos _⟩

/-- Settles O15: the default configuration is legal and unwritten memory canonical. -/
theorem resetMeetsInvariant : Obligations.ResetMeetsInvariant :=
  initial_inv canonical_wf Memory.wf_nil Config.resetNow

end Sys2Proof.Machine

/-! Jumps, calls, returns and skips (40_control_flow.md). -/

namespace Sys2Proof.Machine

theorem pcValue_addr (cfg : Configuration) (nnn : Addr) : (pcValue cfg nnn.toNat).toNat = nnn.toNat := by
  cases h : cfg.pcOverrunPolicy with
  | report => exact pcValue_toNat_report h (by omega)
  | wrap => rw [pcValue_toNat_wrap h]; omega

/-- A write of `PC` with the value of a stored `PC`: itself, or modulo 4096 under `wrap`. -/
theorem pcValue_toNat_self {cfg : Configuration} {w : Word} (h : cfg.pcOverrunPolicy = .wrap → w.toNat < 4096) :
    pcValue cfg w.toNat = w := by
  refine BitVec.eq_of_toNat_eq ?_
  cases hp : cfg.pcOverrunPolicy with
  | report => exact pcValue_toNat_report hp w.isLt
  | wrap => rw [pcValue_toNat_wrap hp, Nat.mod_eq_of_lt (h hp)]

/-! ## Return and call -/

theorem exec_ret_empty {s : State} (h : s.sp.val = 0) : exec .ret s = .next (s.raise .stackUnderflow) := by
  rw [exec, execRet, pop_empty s h]

theorem exec_ret_entry {s : State} {k : Fin 16} (h : s.sp.val = k.val + 1) :
    exec .ret s = .next { s with pc := pcValue s.cfg s.stack[k].toNat, sp := k.castSucc } := by
  rw [exec, execRet, pop_entry s k h]
  rfl

theorem exec_call_full (nnn : Addr) {s : State} (h : s.sp.val = 16) :
    exec (.call nnn) s = .next (s.raise .stackOverflow) := by
  rw [exec, execCall, push_full s.pc s h]

theorem exec_call_room (nnn : Addr) {s : State} (h : s.sp.val < 16) :
    exec (.call nnn) s = .next { s with
      pc := pcValue s.cfg nnn.toNat, stack := s.stack.set s.sp.val s.pc h,
      sp := ⟨s.sp.val + 1, Nat.succ_lt_succ h⟩ } := by
  rw [exec, execCall, push_room s.pc s h]
  rfl

/-- Settles O24: by whether the stack is empty. -/
theorem returnPopsOrUnderflows : Obligations.ReturnPopsOrUnderflows := by
  refine ⟨by decide, fun s => ⟨fun h => exec_ret_empty (by simp [h]), fun k h => ?_⟩⟩
  refine ⟨_, exec_ret_entry h, rfl, fun hreport => ?_, fun hwrap => ?_, rfl, sameBytes_of_mem_eq rfl⟩
  · exact pcValue_toNat_self fun hwrap => by simp [hreport] at hwrap
  · exact pcValue_toNat_wrap hwrap _

/-- Settles O26: by whether the stack is full. -/
theorem callPushesOrOverflows : Obligations.CallPushesOrOverflows := by
  refine fun nnn s => ⟨exec_call_full nnn, fun k h => ?_⟩
  have hlt : s.sp.val < 16 := h ▸ k.isLt
  refine ⟨_, exec_call_room nnn hlt, by simp [h], ?_, fun j hj => ?_, pcValue_addr s.cfg nnn, rfl,
    sameBytes_of_mem_eq rfl⟩
  · simp [h]
  · have hne : s.sp.val ≠ j.val := fun e => hj (Fin.ext (e.symm.trans h))
    simp [hne]

/-! ## Nested calls and returns -/

/-- One more return after a run of returns. -/
theorem runReturns_succ {n : Nat} {s u v : State} {ps : List Word} (hrun : runReturns n s = some (ps, u))
    (hret : exec .ret u = .next v) : runReturns (n + 1) s = some (ps ++ [v.pc], v) := by
  induction n generalizing s ps with
  | zero =>
    obtain ⟨rfl, rfl⟩ := Prod.mk.inj (Option.some.inj hrun)
    simp [runReturns, hret]
  | succ n ih =>
    obtain ⟨t, ht⟩ := exec_next .ret s
    rw [runReturns, ht] at hrun
    obtain ⟨⟨qs, w⟩, hqs, heq⟩ := Option.map_eq_some_iff.mp hrun
    obtain ⟨rfl, rfl⟩ := Prod.mk.inj heq
    rw [runReturns, ht]
    simp [ih hqs]

/-- `u` has the stack of `s` as far as it is in use, and the same memory, configuration and result. -/
structure StackRestored (s u : State) : Prop where
  sp : u.sp = s.sp
  entries : ∀ k : Fin 16, k.val < s.sp.val → u.stack[k] = s.stack[k]
  mem : u.mem = s.mem
  cfg : u.cfg = s.cfg
  result : u.result = s.result

theorem exec_call_sp {s t : State} {nnn : Addr} (hroom : s.sp.val < 16) (h : exec (.call nnn) s = .next t) :
    t.sp.val = s.sp.val + 1 := by
  cases (exec_call_room nnn hroom).symm.trans h
  rfl

/-- A call on a stack with room, what restores its stack, and the return: the return lands after the call. -/
theorem exec_ret_after_call {s t u : State} {p : Word} {nnn : Addr} (hroom : s.sp.val < 16)
    (hp : s.cfg.pcOverrunPolicy = .wrap → p.toNat < 4096) (hcall : exec (.call nnn) { s with pc := p } = .next t)
    (hrestored : StackRestored t u) : ∃ v, exec .ret u = .next v ∧ v.pc = p ∧ StackRestored s v := by
  cases (exec_call_room nnn (s := { s with pc := p }) hroom).symm.trans hcall
  obtain ⟨hsp, hentries, hmem, hcfg, hresult⟩ := hrestored
  have hcfg : u.cfg = s.cfg := hcfg
  have htop : u.sp.val = (⟨s.sp.val, hroom⟩ : Fin 16).val + 1 := congrArg Fin.val hsp
  have hentry : u.stack[(⟨s.sp.val, hroom⟩ : Fin 16)] = p := by
    rw [hentries ⟨s.sp.val, hroom⟩ (Nat.lt_succ_self _)]
    simp
  refine ⟨_, exec_ret_entry htop, ?_, rfl, fun k hk => ?_, hmem, hcfg, hresult⟩
  · show pcValue u.cfg _ = p
    rw [hentry, hcfg]
    exact pcValue_toNat_self hp
  · have hne : s.sp.val ≠ k.val := hk.ne'
    exact (hentries k (Nat.lt_succ_of_lt hk)).trans (by simp [hne])

/-- The returns undo the calls one by one: by induction on the calls, the first call's return being the last. -/
theorem runReturns_runCalls (cs : List (Word × Addr)) (s : State) (hroom : s.sp.val + cs.length ≤ 16)
    (hwrap : s.cfg.pcOverrunPolicy = .wrap → ∀ c ∈ cs, c.1.toNat < 4096) :
    ∃ t u, runCalls cs s = some t ∧ t.sp.val = s.sp.val + cs.length ∧
      runReturns cs.length t = some ((cs.map Prod.fst).reverse, u) ∧ StackRestored s u := by
  induction cs generalizing s with
  | nil => exact ⟨s, s, rfl, rfl, rfl, rfl, fun _ _ => rfl, rfl, rfl, rfl⟩
  | cons c cs ih =>
    obtain ⟨p, nnn⟩ := c
    rw [List.length_cons] at hroom
    have hlt : s.sp.val < 16 := by omega
    obtain ⟨s', hcall⟩ := exec_next (.call nnn) { s with pc := p }
    have hsp' : s'.sp.val = s.sp.val + 1 := exec_call_sp (s := { s with pc := p }) hlt hcall
    have hcfg' : s'.cfg = s.cfg := (exec_cfg hcall).trans rfl
    obtain ⟨t, u, hcalls, hsp, hreturns, hrestored⟩ := ih s' (by omega) fun h c hc =>
      hwrap (hcfg' ▸ h) c (List.mem_cons_of_mem _ hc)
    obtain ⟨v, hret, hpc, hback⟩ :=
      exec_ret_after_call hlt (fun h => hwrap h _ List.mem_cons_self) hcall hrestored
    refine ⟨t, v, ?_, ?_, ?_, hback⟩
    · rw [runCalls, hcall]
      exact hcalls
    · rw [List.length_cons]
      omega
    · rw [List.length_cons, runReturns_succ hreturns hret, hpc, List.map_cons, List.reverse_cons]

/-- Settles O27: the returns undo the calls one by one. -/
theorem nestedCallsReturnInReverseOrder : Obligations.NestedCallsReturnInReverseOrder := by
  intro cs s hroom hwrap
  obtain ⟨t, u, hcalls, hsp, hreturns, hrestored⟩ := runReturns_runCalls cs s hroom hwrap
  exact ⟨t, u, hcalls, hsp, hreturns, hrestored.sp, hrestored.result, sameBytes_of_mem_eq hrestored.mem⟩

/-! ## Jumps -/

theorem toNat_formatA (op : BitVec 4) (nnn : Addr) : (formatA op nnn).toNat = op.toNat * 4096 + nnn.toNat := by
  rw [formatA, BitVec.toNat_append, ← Nat.shiftLeft_add_eq_or_of_lt nnn.isLt, Nat.shiftLeft_eq]

/-- A jump to the instruction's own address writes the `PC` the fetch was made at. -/
theorem step_self_jump {s : State} (hpc : s.pc.toNat ≤ 0xFFE) (hword : s.wordAtPc.toNat = 0x1000 + s.pc.toNat) :
    step s = .next (beginStep s) := by
  have hnnn : (BitVec.ofNat 12 s.pc.toNat).toNat = s.pc.toNat := by
    rw [BitVec.toNat_ofNat, Nat.mod_eq_of_lt (by omega)]
  have henc : s.wordAtPc = encode (.jp (BitVec.ofNat 12 s.pc.toNat)) := by
    refine BitVec.eq_of_toNat_eq ?_
    rw [hword, encode, toNat_formatA, hnnn]
    rfl
  have hback : pcValue s.cfg s.pc.toNat = s.pc := pcValue_toNat_self fun _ => by omega
  rw [step_of_fetch (fetchFails_of_le hpc), henc, decode_encode _ rfl, exec, execJp, hnnn]
  show Host.Outcome.next { beginStep s with pc := pcValue s.cfg s.pc.toNat } = _
  rw [hback]
  rfl

/-- Settles O25: the word of format A decodes to the jump, which is one write of `PC`. -/
theorem jumpLoadsAddress : Obligations.JumpLoadsAddress := by
  refine ⟨fun nnn s => ⟨?_, s.writePc nnn.toNat, rfl, pcValue_addr s.cfg nnn, rfl, sameBytes_of_mem_eq rfl,
    fun hnnn hreport => ?_⟩, fun s => step_self_jump⟩
  · exact decode_encode (.jp nnn) rfl
  · have hfails : (s.writePc nnn.toNat).fetchFails = true := by
      rw [fetchFails_iff, writePc_pc, pcValue_addr, hnnn]
      exact ⟨hreport, by decide⟩
    exact ⟨_, step_of_fetchFails hfails, rfl⟩

theorem toNat_addrX (nnn : Addr) : (addrX nnn).val = nnn.toNat / 256 := by
  show (nnn.extractLsb' 8 4).toNat = _
  rw [BitVec.extractLsb'_toNat, Nat.shiftRight_eq_div_pow]
  omega

/-- The register whose value `Bnnn` adds. -/
def jumpRegister (cfg : Configuration) (nnn : Addr) : Reg := if cfg.jumpAddsVx then addrX nnn else 0

theorem jumpOffset_eq (s : State) (nnn : Addr) : s.jumpOffset nnn = s.reg (jumpRegister s.cfg nnn) := by
  unfold State.jumpOffset jumpRegister
  split_ifs <;> rfl

/-- Settles O29: one write of `PC` with the sum, which under `report` is below 65536. -/
theorem jumpWithOffsetAddsRegister : Obligations.JumpWithOffsetAddsRegister := by
  refine fun nnn s => ⟨s.writePc (nnn.toNat + (s.jumpOffset nnn).toNat), jumpRegister s.cfg nnn, rfl, fun h => ?_,
    fun h => ?_, fun h => ?_, fun h => ?_, rfl, sameBytes_of_mem_eq rfl⟩
  · simp [jumpRegister, h]
  · rw [jumpRegister, if_pos h, toNat_addrX]
  · rw [writePc_pc, jumpOffset_eq, pcValue_toNat_report h (by omega)]
  · rw [writePc_pc, jumpOffset_eq, pcValue_toNat_wrap h]

/-! ## Skips -/

theorem skipsWhen_congr {i : Instr} {s : State} {c d : Prop} (h : c ↔ d) (hc : SkipsWhen i s c) : SkipsWhen i s d :=
  propext h ▸ hc

/-- Settles O28: each answers `skipIf` of its comparison. -/
theorem registerSkipsSkipOnTheirCondition : Obligations.RegisterSkipsSkipOnTheirCondition := by
  refine fun s x y nn => ⟨?_, ?_, ?_, ?_⟩
  · exact skipsWhen_congr beq_iff_eq (skipsWhen_of_exec rfl)
  · exact skipsWhen_congr bne_iff_ne (skipsWhen_of_exec rfl)
  · exact skipsWhen_congr beq_iff_eq (skipsWhen_of_exec rfl)
  · exact skipsWhen_congr bne_iff_ne (skipsWhen_of_exec rfl)

end Sys2Proof.Machine

/-! The register and arithmetic instructions and the random number (41_register_alu.md; 43_random_draw.md rule R91):
each is one register write, with or without a flag after it. -/

namespace Sys2Proof.Machine

/-! ## Flags -/

theorem flagByte_true {f : Bool} (h : f = true) : flagByte f = 1 := by rw [h]; rfl

theorem flagByte_false {f : Bool} (h : ¬ f = true) : flagByte f = 0 := by rw [Bool.not_eq_true _ |>.mp h]; rfl

theorem carry_iff (a b : Byte) : carry a b = true ↔ 255 < a.toNat + b.toNat := decide_eq_true_iff

theorem notBorrow_iff (a b : Byte) : notBorrow a b = true ↔ b.toNat ≤ a.toNat := by simp [notBorrow]

theorem lowBit_iff (b : Byte) : lowBit b = true ↔ b.toNat % 2 = 1 := by
  simp [lowBit, BitVec.getLsbD, Nat.testBit_zero]

theorem highBit_iff (b : Byte) : highBit b = true ↔ 128 ≤ b.toNat := by
  simp only [highBit, BitVec.getLsbD, Nat.testBit_eq_decide_div_mod_eq, decide_eq_true_eq]
  omega

/-! ## A result and then a flag -/

/-- An instruction that answers a register write and a flag write after it. -/
theorem writesRegFlag_of_exec {i : Instr} {s : State} {x : Reg} {b b' : Byte} {f : Bool} {p : Prop}
    (h : exec i s = .next (s.setRegFlag x b f)) (hb : b = b') (hf : f = true ↔ p) : WritesRegFlag i s x b' p := by
  subst hb
  refine ⟨s.setRegFlag x b f, h, fun hx => ?_, fun hp => ?_, fun hp => ?_, fun r hrx hrf => ?_,
    setRegFlag_frame s x b f, sameBytes_of_mem_eq rfl⟩
  · rw [setRegFlag_eq, reg_setFlag_of_ne _ f hx, reg_setReg_self]
  · rw [setRegFlag_eq, reg_setFlag_vf, flagByte_true (hf.mpr hp)]
  · rw [setRegFlag_eq, reg_setFlag_vf, flagByte_false fun h => hp (hf.mp h)]
  · rw [setRegFlag_eq, reg_setFlag_of_ne _ f hrf, reg_setReg_of_ne s b hrx]

/-- Settles O33: each is one write of `V[x]`; the bitwise operations on bytes are those on their numbers. -/
theorem copyAndLogicWriteRegisterOnly : Obligations.CopyAndLogicWriteRegisterOnly := by
  intro s x y
  refine ⟨writesReg_of_exec rfl, ?_, ?_, ?_⟩
  · rw [← BitVec.toNat_or, BitVec.ofNat_toNat, BitVec.setWidth_eq]
    exact writesReg_of_exec rfl
  · rw [← BitVec.toNat_and, BitVec.ofNat_toNat, BitVec.setWidth_eq]
    exact writesReg_of_exec rfl
  · rw [← BitVec.toNat_xor, BitVec.ofNat_toNat, BitVec.setWidth_eq]
    exact writesReg_of_exec rfl

/-- Settles O34: the model's byte sum and its carry. -/
theorem addRegistersSetsCarry : Obligations.AddRegistersSetsCarry :=
  fun s x y => writesRegFlag_of_exec rfl (ofNat_sum_mod_eq_add (s.reg x) (s.reg y)).symm (carry_iff _ _)

/-- The model's byte difference is the difference modulo 256. -/
theorem sub_eq_ofNat_mod (a b : Byte) : a - b = BitVec.ofNat 8 ((256 + a.toNat - b.toNat) % 256) := by
  bv_omega

/-- Settles O35: the model's byte difference and its not-borrow, in either order. -/
theorem subtractRegistersSetsNotBorrow : Obligations.SubtractRegistersSetsNotBorrow :=
  fun _ _ _ => ⟨writesRegFlag_of_exec rfl (sub_eq_ofNat_mod _ _) (notBorrow_iff _ _),
    writesRegFlag_of_exec rfl (sub_eq_ofNat_mod _ _) (notBorrow_iff _ _)⟩

/-! ## Shifts -/

theorem shiftRight_one_eq_ofNat (b : Byte) : b >>> 1 = BitVec.ofNat 8 (b.toNat / 2) := by
  refine BitVec.eq_of_toNat_eq ?_
  rw [BitVec.toNat_ushiftRight, BitVec.toNat_ofNat, Nat.shiftRight_eq_div_pow]
  omega

theorem shiftLeft_one_eq_ofNat (b : Byte) : b <<< 1 = BitVec.ofNat 8 (b.toNat * 2 % 256) := by
  refine BitVec.eq_of_toNat_eq ?_
  rw [BitVec.toNat_shiftLeft, BitVec.toNat_ofNat, Nat.shiftLeft_eq]
  omega

theorem shiftSource_eq {s : State} {x y : Reg} {b : Byte} (hcopy : s.cfg.shiftUsesCopy = true → b = s.reg y)
    (hown : s.cfg.shiftUsesCopy = false → b = s.reg x) : s.shiftSource x y = b := by
  unfold State.shiftSource
  split_ifs with h
  · exact (hcopy h).symm
  · exact (hown (Bool.not_eq_true _ |>.mp h)).symm

/-- Settles O36: both shift the configured source by one bit and flag the bit that leaves. -/
theorem shiftsMoveOneBitIntoFlag : Obligations.ShiftsMoveOneBitIntoFlag := by
  intro s x y b hcopy hown
  have hsource := shiftSource_eq hcopy hown
  rw [← hsource]
  exact ⟨writesRegFlag_of_exec rfl (shiftRight_one_eq_ofNat _) (lowBit_iff _),
    writesRegFlag_of_exec rfl (shiftLeft_one_eq_ofNat _) (highBit_iff _)⟩

/-- Settles O43: one write of `V[x]` with the input masked. -/
theorem randomLoadsMaskedInput : Obligations.RandomLoadsMaskedInput := by
  intro s x nn
  rw [← BitVec.toNat_and, BitVec.ofNat_toNat, BitVec.setWidth_eq]
  exact writesReg_of_exec rfl

end Sys2Proof.Machine

/-! The index register and memory (42_index_memory.md; 20_memory.md rules R30, R35 to R37). -/

namespace Sys2Proof.Machine

/-! ## The index register -/

/-- Settles O37: the immediate has 12 bits, and a glyph address stays below 4096. -/
theorem indexLoadsWriteIndexOnly : Obligations.IndexLoadsWriteIndexOnly := by
  refine fun s x nnn => ⟨⟨_, rfl, toNat_addrWord nnn, rfl, sameBytes_of_mem_eq rfl⟩,
    ⟨_, rfl, ?_, rfl, sameBytes_of_mem_eq rfl⟩⟩
  rw [setI_i, toNat_ofNat_mod_memSize]
  simp only [glyphAddress, fontBase]
  omega

theorem indexOverflow_iff (i : Word) (b : Byte) : indexOverflow i b = true ↔ 0xFFF < i.toNat + b.toNat :=
  decide_eq_true_iff

theorem exec_addI_of_setsVF {s : State} (x : Reg) (h : s.cfg.indexAddSetsVF = true) :
    exec (.addI x) s = .next ((s.setI (s.i.toNat + (s.reg x).toNat)).setFlag (indexOverflow s.i (s.reg x))) := by
  rw [exec, execAddI, if_pos h]

theorem exec_addI_of_keepsVF {s : State} (x : Reg) (h : s.cfg.indexAddSetsVF = false) :
    exec (.addI x) s = .next (s.setI (s.i.toNat + (s.reg x).toNat)) := by
  rw [exec, execAddI, if_neg (by simp [h])]

/-- Settles O38: by whether the configuration has the flag written. -/
theorem indexAddWrapsAndSetsOverflow : Obligations.IndexAddWrapsAndSetsOverflow := by
  intro s x
  cases h : s.cfg.indexAddSetsVF with
  | false =>
    refine ⟨_, exec_addI_of_keepsVF x h, toNat_ofNat_mod_memSize _, by simp, by simp, fun _ => rfl, fun _ _ => rfl,
      rfl, sameBytes_of_mem_eq rfl⟩
  | true =>
    refine ⟨_, exec_addI_of_setsVF x h, toNat_ofNat_mod_memSize _, fun _ hover => ?_, fun _ hle => ?_, by simp,
      fun r hr => reg_setFlag_of_ne _ _ hr, rfl, sameBytes_of_mem_eq rfl⟩
    · rw [reg_setFlag_vf, flagByte_true ((indexOverflow_iff _ _).mpr hover)]
    · rw [reg_setFlag_vf, flagByte_false]
      rw [indexOverflow_iff]
      omega

theorem indexAfterBlock_i_kept {s : State} (h : s.cfg.dumpLoadIncrementsIndex = false) :
    s.indexAfterBlock.i = s.i := by
  simp [h]

theorem indexAfterBlock_i_advanced {s : State} (h : s.cfg.dumpLoadIncrementsIndex = true) :
    s.indexAfterBlock.i.toNat = (s.i.toNat + 16) % 4096 := by
  rw [indexAfterBlock_i, if_pos h, toNat_ofNat_mod_memSize]

/-! ## Stored bytes -/

theorem ea_lt (s : State) (k : Nat) : s.ea k < 4096 := Nat.mod_lt _ (by decide)

theorem ea_mod (s : State) (k : Nat) : s.ea k % 4096 = s.ea k := Nat.mod_eq_of_lt (ea_lt s k)

theorem byteAt_of_mem_eq {s t : State} (h : t.mem = s.mem) (a : Nat) : t.byteAt a = s.byteAt a :=
  sameBytes_of_mem_eq h a

/-- What a store from `I` on left at the address of its `k`-th byte, read through any address that reduces to that one. -/
theorem byteAt_of_stored {s t : State} {bs : List Byte} (hmem : t.mem = (s.storeAtI bs).mem)
    (hlen : bs.length ≤ memSize) {k : Nat} {b : Byte} (hb : bs[k]? = some b) {a : Nat} (ha : a % 4096 = s.ea k) :
    t.byteAt a = b := by
  obtain ⟨hk, rfl⟩ := List.getElem?_eq_some_iff.mp hb
  have hsame : t.byteAt a = (s.storeAtI bs).byteAt (s.ea k) := by
    rw [byteAt_of_mem_eq hmem, State.byteAt, State.byteAt, ha, ea_mod]
  rw [hsame, byteAt_storeAtI_stored s bs hlen k hk]

/-- The bytes a store from `I` on left alone. -/
theorem byteAt_of_not_stored {s t : State} {bs : List Byte} (hmem : t.mem = (s.storeAtI bs).mem) {a : Nat}
    (ha : a < 4096) (hout : ∀ k, k < bs.length → a ≠ s.ea k) : t.byteAt a = s.byteAt a := by
  rw [byteAt_of_mem_eq hmem]
  refine byteAt_storeAtI_outside s bs a fun k hk => ?_
  rw [Nat.mod_eq_of_lt ha]
  exact hout k hk

theorem getElem?_regs (s : State) (k : Fin 16) : s.v.toList[k.val]? = some (s.reg k) := by
  simp [State.reg]

theorem length_regs_le (s : State) : s.v.toList.length ≤ memSize := by
  rw [Vector.length_toList]
  decide

theorem length_decimalDigits_le (b : Byte) : (decimalDigits b).length ≤ memSize :=
  show 3 ≤ memSize by decide

/-! ## Decimal conversion and register dump -/

/-- Settles O39: the store of the three digits, each of which fits a byte. -/
theorem decimalConversionStoresThreeDigits : Obligations.DecimalConversionStoresThreeDigits := by
  intro s x
  have hdigit : ∀ {k : Nat} {b : Byte}, (decimalDigits (s.reg x))[k]? = some b →
      (s.storeAtI (decimalDigits (s.reg x))).byteAt (s.ea k) = b := fun hb =>
    byteAt_of_stored rfl (length_decimalDigits_le _) hb (ea_mod s _)
  have hlt := (s.reg x).isLt
  refine ⟨_, rfl, ?_, ?_, ?_, fun a ha hout => byteAt_of_not_stored rfl ha hout, rfl⟩
  · rw [hdigit (k := 0) rfl, BitVec.toNat_ofNat]
    omega
  · rw [hdigit (k := 1) rfl, BitVec.toNat_ofNat]
    omega
  · rw [hdigit (k := 2) rfl, BitVec.toNat_ofNat]
    omega

/-- Settles O40: the store of all sixteen registers, and `I` as configured. -/
theorem registerDumpStoresAllRegisters : Obligations.RegisterDumpStoresAllRegisters := by
  intro s x
  refine ⟨_, rfl, fun k => ?_, fun a ha hout => ?_, fun h => ?_, fun h => ?_, rfl⟩
  · exact byteAt_of_stored rfl (length_regs_le s) (getElem?_regs s k) (ea_mod s _)
  · exact byteAt_of_not_stored rfl ha fun k hk => hout k (by simpa using hk)
  · exact indexAfterBlock_i_kept h
  · exact indexAfterBlock_i_advanced h

/-! ## Register load -/

theorem exec_load (x : Reg) (s : State) :
    exec (.load x) s = .next ({ s with v := Vector.ofFn fun k => s.loadAtI k.val } : State).indexAfterBlock := rfl

/-- After `Fx65` every register is the byte at its address from `I` on. -/
theorem exec_load_reg {s t : State} {x : Reg} (h : exec (.load x) s = .next t) (k : Fin 16) :
    t.reg k = s.byteAt (s.ea k.val) := by
  rw [exec_load] at h
  rw [← Host.Outcome.next.inj h]
  simp [State.reg, State.loadAtI]

/-- Settles O41: every register is read before any other state is written, and `I` goes as configured. -/
theorem registerLoadReadsAllRegisters : Obligations.RegisterLoadReadsAllRegisters := by
  refine fun s x => ⟨_, exec_load x s, exec_load_reg (exec_load x s), fun h => ?_, fun h => ?_, rfl,
    sameBytes_of_mem_eq (indexAfterBlock_mem _)⟩
  · exact (indexAfterBlock_i_kept (by exact h)).trans rfl
  · exact (indexAfterBlock_i_advanced (by exact h)).trans rfl

/-- Settles O42: the load reads each register's byte where the dump stored it, both from the same index. -/
theorem dumpThenLoadRestoresRegisters : Obligations.DumpThenLoadRestoresRegisters := by
  intro s t u x x' hdump hmem hi
  obtain ⟨w, hload⟩ := exec_next (.load x') u
  refine ⟨w, hload, fun r => ?_⟩
  cases hdump
  have hea : u.ea r.val = s.ea r.val := by rw [State.ea, State.ea, hi]
  rw [exec_load_reg hload, hea]
  exact byteAt_of_stored hmem (length_regs_le s) (getElem?_regs s r) (ea_mod s _)

/-! ## Fetching -/

theorem toNat_wordOfBytes (hi lo : Byte) : (wordOfBytes hi lo).toNat = hi.toNat * 256 + lo.toNat := by
  rw [wordOfBytes, BitVec.toNat_append, ← Nat.shiftLeft_add_eq_or_of_lt lo.isLt, Nat.shiftLeft_eq]

theorem byteAt_of_lt (s : State) {a : Nat} (h : a < 4096) : s.byteAt a = s.mem.read a := by
  rw [State.byteAt, Nat.mod_eq_of_lt h]

/-- Settles O21: the word's bytes in the order of their addresses, and the first bytes that the two stores leave. -/
theorem fetchIsBigEndian : Obligations.FetchIsBigEndian := by
  refine ⟨fun s hpc => ?fetch, fun s t x h => ?digits, fun s t x h => ?dump⟩
  case fetch =>
    refine ⟨s.wordAtPc, s.advancePc, ?_, ?_⟩
    · rw [fetchAdvance, fetchFails_of_le hpc]
      rfl
    · rw [State.wordAtPc, toNat_wordOfBytes, byteAt_of_lt s (by omega), byteAt_of_lt s (by omega)]
  case digits =>
    obtain ⟨u, hu, hhundreds, -⟩ := decimalConversionStoresThreeDigits s x
    cases hu.symm.trans h
    exact hhundreds
  case dump =>
    obtain ⟨u, hu, hregs, -⟩ := registerDumpStoresAllRegisters s x
    cases hu.symm.trans h
    have hpc : (BitVec.ofNat 16 (s.ea 0)).toNat = s.ea 0 := by
      rw [BitVec.toNat_ofNat, Nat.mod_eq_of_lt ((ea_lt s 0).trans (by decide))]
    rw [hiByte_wordAtPc, ← hregs 0]
    exact congrArg t.byteAt hpc

/-- Either store leaves the memory that storing its bytes from `I` on leaves. -/
theorem mem_after_store {s t : State} {i : Instr} {x : Reg} {bs : List Byte} (hi : i = .ldB x ∧
    bs = decimalDigits (s.reg x) ∨ i = .dump x ∧ bs = s.v.toList) (h : exec i s = .next t) :
    t.mem = (s.storeAtI bs).mem ∧ bs.length ≤ memSize := by
  obtain ⟨rfl, rfl⟩ | ⟨rfl, rfl⟩ := hi
  · cases h
    exact ⟨rfl, length_decimalDigits_le _⟩
  · cases h
    exact ⟨rfl, length_regs_le s⟩

/-- Settles O22: the next fetch reads the memory the store left, byte by byte. -/
theorem storedBytesAreFetched : Obligations.StoredBytesAreFetched := by
  intro s t i x bs hi hexec hfetch
  obtain ⟨hmem, hlen⟩ := mem_after_store hi hexec
  refine ⟨step_of_fetch hfetch, fun k b hb => ⟨fun ha => ?_, fun ha => ?_⟩⟩
  · rw [hiByte_wordAtPc, byteAt_of_stored hmem hlen hb ha]
  · rw [loByte_wordAtPc, byteAt_of_stored hmem hlen hb ha]

end Sys2Proof.Machine

/-! The draw, cell by cell, and drawing twice (43_random_draw.md rules R94 to R96). -/

namespace Sys2Proof.Machine

/-! ## The cells a draw flips -/

theorem drawCells_inside {rows : List Byte} {ox oy : Byte} {s : State} {p : Nat × Nat}
    (hp : p ∈ drawCells rows ox oy s) : p.1 < s.cfg.height ∧ p.2 < s.cfg.width := by
  obtain ⟨-, -, hr, -, -, hc, -⟩ := mem_spritePixels.mp hp
  exact ⟨hr, hc⟩

@[simp] theorem length_spriteRows (s : State) (n : Nat) : (s.spriteRows n).length = n := by
  simp [State.spriteRows]

theorem getD_spriteRows (s : State) {n k : Nat} (h : k < n) : (s.spriteRows n).getD k 0 = s.byteAt (s.ea k) := by
  simp [State.spriteRows, h, State.loadAtI]

/-- The cells `Dxyn` flips are those of the grid under a set bit of the sprite. -/
theorem mem_drawCells_iff {s : State} {x y : Reg} {n : Fin 16} {r c : Nat} :
    (r, c) ∈ drawCells (s.spriteRows n.val) (s.reg x) (s.reg y) s ↔
      r < s.cfg.height ∧ c < s.cfg.width ∧ s.drawnBit x y n r c = true := by
  rw [drawCells, mem_spritePixels, length_spriteRows]
  simp only [State.drawnBit, spriteBit, Bool.and_eq_true, decide_eq_true_eq]
  constructor
  · rintro ⟨h1, h2, hr, h3, h4, hc, hbit⟩
    rw [getD_spriteRows s (by omega)] at hbit
    exact ⟨hr, hc, ⟨⟨⟨h1, h2⟩, h3⟩, h4⟩, hbit⟩
  · rintro ⟨hr, hc, ⟨⟨⟨h1, h2⟩, h3⟩, h4⟩, hbit⟩
    rw [← getD_spriteRows s (n := n.val) (by omega)] at hbit
    exact ⟨h1, h2, hr, h3, h4, hc, hbit⟩

/-- Settles O45: `fbDraw_spec` with the flipped cells those under a set bit, and the collision in `VF`. -/
theorem drawFlipsCellsUnderSetBits : Obligations.DrawFlipsCellsUnderSetBits := by
  intro s x y n _ hshape
  obtain ⟨hshape', hcell, hcollision, hchanged, hframe⟩ :=
    fbDraw_spec (s.spriteRows n.val) (s.reg x) (s.reg y) s hshape
  refine ⟨_, rfl, hshape', fun r c hr hc => ?cell, ?collision, ?noCollision, ?flipped, ?notFlipped,
    fun r hr => reg_setFlag_of_ne _ _ hr, rfl, sameBytes_of_mem_eq rfl⟩
  case cell =>
    refine (hcell r c).trans ?_
    simp [mem_drawCells_iff, hr, hc]
  case collision =>
    rintro ⟨r, c, hr, hc, hbit, hon⟩
    rw [reg_setFlag_vf]
    exact flagByte_true (hcollision.mpr ⟨(r, c), mem_drawCells_iff.mpr ⟨hr, hc, hbit⟩, hon⟩)
  case noCollision =>
    intro hoff
    rw [reg_setFlag_vf]
    refine flagByte_false fun h => ?_
    obtain ⟨⟨r, c⟩, hp, hon⟩ := hcollision.mp h
    obtain ⟨hr, hc, hbit⟩ := mem_drawCells_iff.mp hp
    simp [hoff r c hr hc hbit] at hon
  case flipped =>
    rintro ⟨r, c, hr, hc, hbit⟩
    exact hchanged.mpr (.inr (List.ne_nil_of_mem (mem_drawCells_iff.mpr ⟨hr, hc, hbit⟩)))
  case notFlipped =>
    intro hnone
    have hnil : drawCells (s.spriteRows n.val) (s.reg x) (s.reg y) s = [] := by
      refine List.eq_nil_iff_forall_not_mem.mpr fun ⟨r, c⟩ hp => ?_
      obtain ⟨hr, hc, hbit⟩ := mem_drawCells_iff.mp hp
      simp [hnone r c hr hc] at hbit
    exact Bool.eq_iff_iff.mpr (hchanged.trans (or_iff_left (not_not.mpr hnil)))

/-! ## Drawing twice -/

theorem Grid.cell_eq_getElem {g : Grid} {r c : Nat} (hr : r < g.length) (hc : c < g[r].length) :
    g.cell r c = g[r][c] := by
  simp [Grid.cell, hr, hc]

/-- A grid of a shape is its cells. -/
theorem Grid.ext_of_cell {g g' : Grid} {w h : Nat} (hg : g.hasShape w h) (hg' : g'.hasShape w h)
    (hcell : ∀ r c, g.cell r c = g'.cell r c) : g = g' := by
  refine List.ext_getElem (hg.1.trans hg'.1.symm) fun r hr hr' => ?_
  have hrow : g[r].length = w := hg.2 _ (List.getElem_mem hr)
  have hrow' : g'[r].length = w := hg'.2 _ (List.getElem_mem hr')
  refine List.ext_getElem (hrow.trans hrow'.symm) fun c hc hc' => ?_
  rw [← Grid.cell_eq_getElem hr hc, ← Grid.cell_eq_getElem hr' hc', hcell]

/-- Settles O46: both draws flip the same cells, so the second undoes the first and collides with what it turned on. -/
theorem drawTwiceRestoresGrid : Obligations.DrawTwiceRestoresGrid := by
  intro s rows ox oy _ hshape first second
  obtain ⟨hshape₁, hcell₁, -, -, -⟩ := fbDraw_spec rows ox oy s hshape
  obtain ⟨hshape₂, hcell₂, hcollision₂, -, -⟩ := fbDraw_spec rows ox oy first hshape₁
  have hcells : drawCells rows ox oy first = drawCells rows ox oy s := rfl
  rw [hcells] at hcollision₂
  constructor
  · refine Grid.ext_of_cell hshape₂ hshape fun r c => ?_
    rw [hcell₂, hcells, hcell₁, Bool.xor_assoc, Bool.xor_self, Bool.xor_false]
  · rw [hcollision₂]
    constructor
    · rintro ⟨⟨r, c⟩, hp, hon⟩
      obtain ⟨hr, hc⟩ := drawCells_inside hp
      refine ⟨r, c, hr, hc, ?_, hon⟩
      simpa [hp] using (hcell₁ r c).symm.trans hon
    · rintro ⟨r, c, -, -, hoff, hon⟩
      refine ⟨(r, c), ?_, hon⟩
      simpa [hoff] using (hcell₁ r c).symm.trans hon

end Sys2Proof.Machine

/-! Keys, timers and the host's transactions (44_keys_timers.md; 00_scope.md rules R6, R7), and reset
(70_reset_and_hazards.md rules R129, R130). -/

namespace Sys2Proof.Machine

/-! ## Key skips -/

theorem keyOf_eq {s : State} {x : Reg} {k : Key} (h : (s.reg x).toNat % 16 = k.val) : s.keyOf x = k := by
  refine Fin.ext ?_
  show ((s.reg x).extractLsb' 0 4).toNat = k.val
  rw [BitVec.extractLsb'_toNat, Nat.shiftRight_zero]
  exact h

/-- Settles O47: each answers `skipIf` of the selected key's flag. -/
theorem keySkipsTestSelectedKey : Obligations.KeySkipsTestSelectedKey := by
  intro s x k hk
  rw [← keyOf_eq hk]
  exact ⟨skipsWhen_of_exec rfl, skipsWhen_congr (Bool.not_eq_true' _).to_iff (skipsWhen_of_exec rfl)⟩

/-! ## The wait for a key -/

theorem leastKey_eq_some {s : State} {k : Key} (hk : s.key k = true) (hleast : ∀ j, j < k → s.key j = false) :
    s.leastKey = some k := by
  refine List.find?_eq_some_iff_getElem.mpr ⟨hk, k.val, by simp, by simp, fun j hj => ?_⟩
  simpa using hleast ⟨j, hj.trans k.isLt⟩ hj

theorem leastKey_eq_none {s : State} (h : ∀ k, s.key k = false) : s.leastKey = none :=
  List.find?_eq_none.mpr fun k _ => by simp [h k]

theorem exec_ldVxK_pressed {s : State} (x : Reg) {k : Key} (h : s.leastKey = some k) :
    exec (.ldVxK x) s = .next { s.setReg x (BitVec.ofNat 8 k.val) with keys := s.keys.set k.val false } := by
  rw [exec, execLdVxK, h]

theorem exec_ldVxK_waiting {s : State} (x : Reg) (h : s.leastKey = none) :
    exec (.ldVxK x) s = .next (s.writePc (s.pc - 2).toNat) := by
  rw [exec, execLdVxK, h]

/-- Settles O48: the search from key 0 up finds the least pressed key. -/
theorem keyWaitReportsAndClearsLeastKey : Obligations.KeyWaitReportsAndClearsLeastKey := by
  intro s x k hk hleast
  refine ⟨_, exec_ldVxK_pressed x (leastKey_eq_some hk hleast), ?_, fun r hr => reg_setReg_of_ne s _ hr,
    key_clear_self s k false, fun j hj => key_clear_of_ne s false hj, rfl, sameBytes_of_mem_eq rfl⟩
  refine (congrArg BitVec.toNat (reg_setReg_self s x _)).trans ?_
  rw [BitVec.toNat_ofNat]
  omega

/-- The rewind takes back the fetch's advance, past the end of memory too. -/
theorem pcValue_rewind_advance {s : State} (hf : s.fetchFails = false) (hpc : s.pc.toNat < 4096) :
    pcValue s.cfg (pcValue s.cfg (s.pc.toNat + 2) - 2).toNat = s.pc := by
  refine BitVec.eq_of_toNat_eq ?_
  cases hp : s.cfg.pcOverrunPolicy with
  | report =>
    have hle : s.pc.toNat ≤ 0xFFE := (fetchFails_false_iff s).mp hf hp
    have hadv := pcValue_toNat_report hp (t := s.pc.toNat + 2) (by omega)
    rw [pcValue_toNat_report hp (BitVec.isLt _)]
    bv_omega
  | wrap =>
    have hadv := pcValue_toNat_wrap hp (s.pc.toNat + 2)
    rw [pcValue_toNat_wrap hp]
    bv_omega

/-- Settles O49: with no key pressed the meaning is one write of `PC`, which in a whole step undoes the fetch's. -/
theorem keyWaitRewindsWithoutKey : Obligations.KeyWaitRewindsWithoutKey := by
  refine ⟨fun s x hkeys => ?_, fun s x hf hpc hdecode hkeys => ⟨?_, rfl⟩⟩
  · refine ⟨_, exec_ldVxK_waiting x (leastKey_eq_none hkeys), fun hreport h2 => ?_, fun hwrap => ?_, rfl,
      sameBytes_of_mem_eq rfl⟩
    · rw [writePc_pc, pcValue_toNat_report hreport (BitVec.isLt _)]
      bv_omega
    · rw [writePc_pc, pcValue_toNat_wrap hwrap]
      bv_omega
  · have hnone : (beginStep s).advancePc.leastKey = none := leastKey_eq_none hkeys
    rw [step_of_fetch hf, hdecode, exec_ldVxK_waiting x hnone]
    show Host.Outcome.next { beginStep s with pc := pcValue s.cfg (pcValue s.cfg (s.pc.toNat + 2) - 2).toNat } = _
    rw [pcValue_rewind_advance hf hpc]
    rfl

/-- Settles O50: one write of a register or of a timer. -/
theorem timerTransfersCopyOneByte : Obligations.TimerTransfersCopyOneByte :=
  fun _ _ => ⟨writesReg_of_exec rfl, ⟨_, rfl, rfl, rfl, sameBytes_of_mem_eq rfl⟩,
    ⟨_, rfl, rfl, rfl, sameBytes_of_mem_eq rfl⟩⟩

/-! ## The host's transactions -/

theorem hostSetKey_of_key (k : Key) (b : Bool) (s : State) :
    hostSetKey k.val b s = .next { s with keys := s.keys.set k.val b } := by
  rw [hostSetKey, dif_pos k.isLt]
  rfl

/-- Settles O51: by whether the index names a key. -/
theorem setKeyWritesOneFlag : Obligations.SetKeyWritesOneFlag := by
  refine fun s pressed => ⟨fun k => ⟨_, hostSetKey_of_key k pressed s, ?_, fun j hj => ?_, rfl⟩, fun k hk => ?_⟩
  · exact key_clear_self s k pressed
  · exact key_clear_of_ne s pressed hj
  · rw [hostSetKey, dif_neg (Nat.not_lt.mpr hk)]

/-- Settles O54: the calls of a step are folded over the key flags and the changed flag, one call at a time. -/
theorem scheduledCallsActLikeTransactions : Obligations.ScheduledCallsActLikeTransactions := by
  refine fun s cs => ⟨rfl, rfl, rfl, fun k b t h => ?_⟩
  obtain ⟨_, rfl⟩ := hostSetKey_next h
  rfl

/-! ## Reset -/

theorem hostReset_of_contract {cfg : Configuration} {font rom : List Byte} (now : Nat) (hcfg : cfg.wf)
    (hfont : font.length = fontBytes) (hrom : rom.length ≤ maxRomBytes) :
    hostReset cfg font rom now =
      .next (State.initial cfg ((Memory.store [] fontBase font).store progBase rom) now) := by
  rw [hostReset, if_neg (not_not.mpr hfont), if_neg (Nat.not_lt.mpr hrom), if_pos hcfg]

theorem hostReset_of_font {cfg : Configuration} {font rom : List Byte} {now : Nat} (hfont : font.length ≠ fontBytes) :
    hostReset cfg font rom now = .refused .fontNotEightyBytes := by
  rw [hostReset, if_pos hfont]

theorem hostReset_of_rom {cfg : Configuration} {font rom : List Byte} {now : Nat} (hfont : font.length = fontBytes)
    (hrom : maxRomBytes < rom.length) : hostReset cfg font rom now = .refused .romTooLong := by
  rw [hostReset, if_neg (not_not.mpr hfont), if_pos hrom]

theorem hostReset_of_configuration {cfg : Configuration} {font rom : List Byte} {now : Nat}
    (hfont : font.length = fontBytes) (hrom : rom.length ≤ maxRomBytes) (hcfg : ¬ cfg.wf) :
    hostReset cfg font rom now = .refused .configurationOutOfRange := by
  rw [hostReset, if_neg (not_not.mpr hfont), if_neg (Nat.not_lt.mpr hrom), if_neg hcfg]

/-- Settles O56: the three checks of the contract, in their order. -/
theorem resetRefusesBrokenContract : Obligations.ResetRefusesBrokenContract :=
  fun _ _ _ _ => ⟨hostReset_of_font, hostReset_of_rom, hostReset_of_configuration⟩

theorem Memory.unlisted_outside_font {a : Nat} (h : a < 0x050 ∨ 0x09F < a) : Memory.unlisted a = 0 := by
  rcases h with h | h
  · exact if_neg (Nat.not_le.mpr h)
  · have hlen : defaultFont.length ≤ a - fontBase := Nat.le_sub_of_add_le h
    rw [Memory.unlisted, List.getD_eq_default _ _ hlen, ite_self]
    rfl

/-- A byte of a store that stays below the end of memory. -/
theorem Memory.read_store_at {m : Memory} {a k : Nat} {bs : List Byte} (hend : a + bs.length ≤ 4096)
    (hk : k < bs.length) : Memory.read (Memory.store m a bs) (a + k) = bs.getD k 0 := by
  have haddr : a + k = (a + k) % memSize := (Nat.mod_eq_of_lt (show a + k < 4096 by omega)).symm
  rw [haddr, Memory.read_store_stored m a bs (show bs.length ≤ 4096 by omega) k hk, List.getD_eq_getElem _ _ hk]

theorem Memory.read_store_beside {m : Memory} {a a' : Nat} {bs : List Byte} (hend : a + bs.length ≤ 4096)
    (ha : a' < a ∨ a + bs.length ≤ a') : Memory.read (Memory.store m a bs) a' = Memory.read m a' := by
  refine Memory.read_store_of_outside m a a' bs fun k hk => ?_
  rw [Nat.mod_eq_of_lt (show a + k < 4096 by omega)]
  omega

section ResetMemory

variable {font rom : List Byte} (hfont : font.length = 80) (hrom : rom.length ≤ 3584)
include hfont hrom

theorem read_resetMemory_font {j : Nat} (hj : j < 80) :
    Memory.read ((Memory.store [] fontBase font).store progBase rom) (0x050 + j) = font.getD j 0 := by
  rw [Memory.read_store_beside (a := 0x200) (by omega) (by omega),
    Memory.read_store_at (a := 0x050) (by omega) (by omega)]

omit hfont in
theorem read_resetMemory_rom {j : Nat} (hj : j < rom.length) :
    Memory.read ((Memory.store [] fontBase font).store progBase rom) (0x200 + j) = rom.getD j 0 :=
  Memory.read_store_at (a := 0x200) (by omega) hj

theorem read_resetMemory_elsewhere {a : Nat} (hnoFont : a < 0x050 ∨ 0x09F < a)
    (hnoRom : a < 0x200 ∨ 0x200 + rom.length ≤ a) :
    Memory.read ((Memory.store [] fontBase font).store progBase rom) a = 0 := by
  rw [Memory.read_store_beside (a := 0x200) (by omega) hnoRom,
    Memory.read_store_beside (a := 0x050) (by omega) (by omega)]
  exact Memory.unlisted_outside_font hnoFont

end ResetMemory

/-- Settles O55: the memory of the two stores read at each address, and the initial state's other fields. -/
theorem resetPlacesFontAndRom : Obligations.ResetPlacesFontAndRom := by
  intro cfg font rom now hcfg hfont hrom
  refine ⟨_, hostReset_of_contract now hcfg hfont hrom, fun j hj => ?_, fun j hj => ?_, fun a ha hnoFont hnoRom => ?_,
    rfl, rfl, Grid.cell_blank cfg.width cfg.height, rfl, rfl, fun r => ?_, rfl, fun k => ?_, rfl, rfl, fun k => ?_, rfl,
    initial_inv hcfg (Memory.store_wf (Memory.store_wf Memory.wf_nil _ _) _ _) now⟩
  · exact (byteAt_of_lt _ (by omega)).trans (read_resetMemory_font hfont hrom hj)
  · exact (byteAt_of_lt _ (by omega)).trans (read_resetMemory_rom hrom hj)
  · exact (byteAt_of_lt _ ha).trans (read_resetMemory_elsewhere hfont hrom hnoFont hnoRom)
  · simp [State.reg, State.initial]
  · simp [State.initial]
  · simp [State.key, State.initial]

/-- Settles O57: the initial state's fields, and the default font read where no byte is listed. -/
theorem resetStateHoldsDocumentedValues : Obligations.ResetStateHoldsDocumentedValues :=
  ⟨rfl, rfl, Grid.blank_hasShape 64 32, Grid.cell_blank 64 32, by decide⟩

end Sys2Proof.Machine
